-- ==== Sys2Proof/Word.lean ====
section
/-! DEFINITION. The two value widths of the engine: 64-bit words (R5, R6, R100) and bytes (R7). -/

namespace Sys2Proof

/-- A 64-bit value: a CRC register, a table entry, a command word, an operand, a host address (R5, R60, R100). -/
abbrev Word := BitVec 64

/-- An 8-bit unsigned value (R7). -/
abbrev Byte := BitVec 8

end Sys2Proof
end

