-- ==== Sys2Proof/Machine/Bytes.lean ====
section
/-! DEFINITION. Byte order, decided once (R7, R64): byte `j` of a word is its bits `[8j+7:8j]`. -/

namespace Sys2Proof.Machine

/-- Byte `j` of a word, `w[8j+7:8j]` (R5, R64). -/
def byteAt (w : Word) (j : Nat) : Byte := w.extractLsb' (8 * j) 8

/-- The low `n` bytes of a word, least significant first (R64, R199). -/
def lowBytes (w : Word) (n : Nat) : List Byte := (List.range n).map (byteAt w)

/-- `zext_64` of a byte (R6). -/
def zext64 (b : Byte) : Word := b.setWidth 64

/-- The little-endian reading `d[0] | d[1] << 8 | ... | d[7] << 56` (R7). -/
def le64 : List Byte → Word
  | [] => 0#64
  | b :: d => zext64 b ||| (le64 d <<< 8)

/-- `n` bytes of value `0x00` (R7). -/
def zeros (n : Nat) : List Byte := List.replicate n 0#8

end Sys2Proof.Machine
end

