-- ==== Sys2Proof/Syntax.lean ====
section
/-! DEFINITION. The ten commands (R83): one constructor per row of spec/opcode_table.json. A command is the unit the spec
calls an instruction (R80). Its operands beyond the slot number are in `ARG0` and `ARG1`, not in the word (R82). -/

namespace Sys2Proof

/-- A command of R83. `ctx` is the number of a context slot, written `c<ctx>` (R81, R86). -/
inductive Instr where
  /-- R195: do nothing. -/
  | nop
  /-- R196: create a Digest in the lowest free slot. -/
  | create
  /-- R197: append `a1` bytes of host memory from `a0`. -/
  | append (ctx : Nat)
  /-- R199: append the low `a1` bytes of `a0`. -/
  | appendImm (ctx : Nat)
  /-- R200: read the finalized checksum. -/
  | checksum (ctx : Nat)
  /-- R201: read the raw register. -/
  | getreg (ctx : Nat)
  /-- R202: release a Digest. -/
  | destroy (ctx : Nat)
  /-- R145: one scalar step on explicit operands. -/
  | stepByte
  /-- R169: one table-path lane step on explicit operands. -/
  | stepWord
  /-- R125: read one table entry. -/
  | tblRead
deriving DecidableEq, Repr

/-- The slot number a command names, for the commands marked "ctx" in R83. -/
def Instr.slot? : Instr → Option Nat
  | .nop => none
  | .create => none
  | .append c => some c
  | .appendImm c => some c
  | .checksum c => some c
  | .getreg c => some c
  | .destroy c => some c
  | .stepByte => none
  | .stepWord => none
  | .tblRead => none

end Sys2Proof
end

