-- ==== Sys2Proof/WellFormed.lean ====
section
/-! DEFINITION. When a command can be encoded: the slot number fits the 8-bit field `CTX` (R81, R86; R242: "`CTX = 300`
cannot be encoded"). -/

namespace Sys2Proof

/-- The command has an encoding (R81, R82): the only operand in the word is `CTX`, 8 bits wide. -/
def Instr.wellFormed (i : Instr) : Bool :=
  match i.slot? with
  | some c => decide (c < 256)
  | none => true

end Sys2Proof
end

