-- ==== Sys2Proof/Decode.lean ====
section
/-! DEFINITION. The decoder of command words (R81, R83, R84), total on any bytes, and after it the encoder. -/

namespace Sys2Proof

/-- `OPC = v[7:0]` (R81). -/
def opcField (w : Word) : Byte := w.extractLsb' 0 8

/-- `CTX = v[15:8]` (R81). -/
def ctxField (w : Word) : Byte := w.extractLsb' 8 8

/-- `RSV = v[63:16]` (R81). -/
def rsvField (w : Word) : BitVec 48 := w.extractLsb' 16 48

/-- Why a word is illegal (R84). The engine reports all of them as the one code `ILLEGAL`. -/
inductive DecodeError where
  /-- The bytes are not one 64-bit word: R80 gives every command this length. -/
  | wrongLength
  /-- `RSV != 0`. -/
  | reservedBits
  /-- `OPC` is not one of the ten values of R83. -/
  | unassignedOpcode
  /-- `CTX != 0` for an opcode with "ctx = no". -/
  | ctxOnPlainCommand
deriving DecidableEq, Repr

/-- A row of the opcode map (R83): a word is of this row when `(word & mask) = match`. -/
structure OpRow where
  mnemonic : String
  matchWord : Word
  mask : Word
  command : Nat → Instr

/-- The `mask` of the commands without a CTX field: every bit must match (R83). -/
def plainMask : Word := 0xFFFFFFFFFFFFFFFF#64

/-- The `mask` of the commands with a CTX field (R83). -/
def ctxMask : Word := 0xFFFFFFFFFFFF00FF#64

/-- The opcode map of R83, row by row in the table's order. -/
def opcodeMap : List OpRow :=
  [ ⟨"NOP",        0x0000000000000000#64, plainMask, fun _ => .nop⟩,
    ⟨"CREATE",     0x0000000000000001#64, plainMask, fun _ => .create⟩,
    ⟨"APPEND",     0x0000000000000002#64, ctxMask,   fun c => .append c⟩,
    ⟨"APPEND_IMM", 0x0000000000000003#64, ctxMask,   fun c => .appendImm c⟩,
    ⟨"CHECKSUM",   0x0000000000000004#64, ctxMask,   fun c => .checksum c⟩,
    ⟨"GETREG",     0x0000000000000005#64, ctxMask,   fun c => .getreg c⟩,
    ⟨"DESTROY",    0x0000000000000006#64, ctxMask,   fun c => .destroy c⟩,
    ⟨"STEP_BYTE",  0x0000000000000010#64, plainMask, fun _ => .stepByte⟩,
    ⟨"STEP_WORD",  0x0000000000000011#64, plainMask, fun _ => .stepWord⟩,
    ⟨"TBL_READ",   0x0000000000000012#64, plainMask, fun _ => .tblRead⟩ ]

/-- `(word & mask) = match` (R83). -/
def rowMatches (w : Word) (r : OpRow) : Bool := (w &&& r.mask) == r.matchWord

/-- The name of the reason a word matches no row, in the order R84 lists the fields from the top of the word down. -/
def rejectReason (w : Word) : DecodeError :=
  if rsvField w ≠ 0#48 then .reservedBits
  else if opcodeMap.any (fun r => opcField r.matchWord == opcField w) then .ctxOnPlainCommand
  else .unassignedOpcode

/-- The command a 64-bit word stands for, with `c = word[15:8]` for the rows with a CTX field (R83). No mode bit changes
decoding (R85). -/
def decode (w : Word) : Except DecodeError Instr :=
  match opcodeMap.find? (rowMatches w) with
  | some r => .ok (r.command (ctxField w).toNat)
  | none => .error (rejectReason w)

/-- Decoding from the byte lanes of the register bus: lane `j` carries bits `[8j+7:8j]` (R64, R80). -/
def decodeLanes (d : List Byte) : Except DecodeError Instr :=
  if d.length = 8 then decode (Machine.le64 d) else .error .wrongLength

/-- The operation code of a command (R83). -/
def opcOf : Instr → Byte
  | .nop => 0x00#8
  | .create => 0x01#8
  | .append _ => 0x02#8
  | .appendImm _ => 0x03#8
  | .checksum _ => 0x04#8
  | .getreg _ => 0x05#8
  | .destroy _ => 0x06#8
  | .stepByte => 0x10#8
  | .stepWord => 0x11#8
  | .tblRead => 0x12#8

/-- The `CTX` field of a command: `0` for the commands without a slot (R81). -/
def ctxOf (i : Instr) : Byte := BitVec.ofNat 8 (i.slot?.getD 0)

/-- The command word of a well-formed command: `(c << 8) | OPC`, with `RSV = 0` (R81, R83). -/
def encode (i : Instr) : Word := (Machine.zext64 (ctxOf i) <<< 8) ||| Machine.zext64 (opcOf i)

/-- The mnemonic of a command, as R83 spells it. -/
def mnemonicOf : Instr → String
  | .nop => "NOP"
  | .create => "CREATE"
  | .append _ => "APPEND"
  | .appendImm _ => "APPEND_IMM"
  | .checksum _ => "CHECKSUM"
  | .getreg _ => "GETREG"
  | .destroy _ => "DESTROY"
  | .stepByte => "STEP_BYTE"
  | .stepWord => "STEP_WORD"
  | .tblRead => "TBL_READ"

/-- The name part of the assembler's `crc.<name>`: the lower-case mnemonic (R86). -/
def asmName : Instr → String
  | .nop => "crc.nop"
  | .create => "crc.create"
  | .append _ => "crc.append"
  | .appendImm _ => "crc.append_imm"
  | .checksum _ => "crc.checksum"
  | .getreg _ => "crc.getreg"
  | .destroy _ => "crc.destroy"
  | .stepByte => "crc.step_byte"
  | .stepWord => "crc.step_word"
  | .tblRead => "crc.tbl_read"

/-- The assembler text of a command: `crc.<name>`, and the operand `c<n>` where there is a CTX field (R86). -/
def asmText (i : Instr) : String :=
  match i.slot? with
  | some c => asmName i ++ " c" ++ toString c
  | none => asmName i

/-- The instruction the decoder reads from a word whose bits are numbered as spec/opcode_table.json numbers them. The word
goes through the byte lanes of the bus (R64): lane 0 carries bits `[7:0]`. Bits above `nbits` are 0. -/
def decodeTableWord (nbits w : Nat) : Option Instr :=
  (decodeLanes (Machine.lowBytes (BitVec.ofNat 64 (w % 2 ^ nbits)) 8)).toOption

end Sys2Proof
end

