-- ==== Sys2Proof/Config.lean ====
section
/-! DEFINITION. What an implementation or its platform fixes (the OPEN parameters of R4 and of 92_eei_decisions.md), and the
one family of free values the spec leaves open (R70 item 3). The constants have no body: nothing can be proved about the
value of one. The parameters a machine runs with are a field of its state, `Machine.State.params`, which no step changes; a
statement over every state therefore holds for every value of every parameter. -/

namespace Sys2Proof

/-- A range of host addresses: `size` bytes from `base`. A finite list of ranges can hold any set of the `2^64` host
addresses, so a list of them is a predicate `u64 -> Bool` (R62) held as plain data. -/
structure AddrRange where
  base : Nat
  size : Nat
deriving DecidableEq, Repr

/-- The OPEN parameters of R4, R62 and R291. Their types admit exactly the domains R4 gives. -/
structure Params where
  /-- `NUM_CTX - 1`, as `CAP[7:0]` shows it: `1 <= NUM_CTX <= 256` (R4, R25). -/
  numCtxM1 : BitVec 8
  /-- `LANES - 1`: `1 <= LANES <= 255` (R4). -/
  lanesM1 : Fin 255
  /-- `HAS_CLMUL`: whether the fold path is built (R4, R167). -/
  hasClmul : Bool
  /-- Bits `[63:8]` of `REG_BASE`, which is aligned to 256 bytes (R4, R21). -/
  regBaseHi : BitVec 56
  /-- The addresses on which the platform answers a read with `BusFault`: `mem_fault` (R62). -/
  faultAt : List AddrRange
  /-- The addresses whose reads the platform never answers. `READ_PORT_ANSWERS` says that there are none (R291). -/
  silentAt : List AddrRange
deriving DecidableEq, Repr

/-- The `NUM_CTX` of the machine at hand, less 1 (R4: OPEN). -/
opaque Config.numCtxM1 : BitVec 8
/-- The `LANES` of the machine at hand, less 1 (R4: OPEN). -/
opaque Config.lanesM1 : Fin 255
/-- The `HAS_CLMUL` of the machine at hand (R4: OPEN). -/
opaque Config.hasClmul : Bool
/-- Bits `[63:8]` of the `REG_BASE` of the machine at hand (R4: OPEN). -/
opaque Config.regBaseHi : BitVec 56
/-- The `mem_fault` of the platform at hand (R62: OPEN). -/
opaque Config.faultAt : List AddrRange
/-- The addresses the platform at hand never answers (R291: OPEN). -/
opaque Config.silentAt : List AddrRange

/-- FREE VALUE (R70 item 3, I5). Which of the values that a byte held during the window of an APPEND its read returns:
the `i`-th byte of the `n`-th accepted command takes the value numbered `raceDraw n i`, counted modulo their number. -/
opaque Config.raceDraw : Nat → Nat → Nat

/-- The parameters of the machine at hand: those it has at reset (R4). -/
def Config.params : Params :=
  { numCtxM1 := Config.numCtxM1, lanesM1 := Config.lanesM1, hasClmul := Config.hasClmul,
    regBaseHi := Config.regBaseHi, faultAt := Config.faultAt, silentAt := Config.silentAt }

end Sys2Proof
end

