-- ==== Sys2Proof/Machine/State.lean ====
section
/-! DEFINITION. The state of the engine (R20), as plain data, beside the state of its surroundings that a step reads: the
parameters (R4), host memory as the read port sees it (R60), and the queue of what happens next (R70, R246). -/

namespace Sys2Proof.Machine

/-- The outcome of a command, held in `STATUS.ERRCODE` (R240). Its numeric code is `errCodeBits`. -/
inductive ErrCode where
  /-- `0x00`: the command succeeded. -/
  | ok
  /-- `0x01`: the word matches no row of the opcode map. -/
  | illegal
  /-- `0x02`: `CTX >= NUM_CTX`. -/
  | badCtx
  /-- `0x03`: `LIVE[CTX] = 0`. -/
  | deadCtx
  /-- `0x04`: every context slot is live. -/
  | noSlot
  /-- `0x05`: an operand out of range. -/
  | badArg
  /-- `0x06`: APPEND with `a0 = 0` and `a1 != 0`. -/
  | nullPtr
  /-- `0x07`: APPEND with `a0 + a1 > 2^64`. -/
  | range
  /-- `0x08`: a byte read of APPEND returned `BusFault`. -/
  | bus
deriving DecidableEq, Repr

/-- The two stored fields of `CTRL` (R27), and their copy `sel` in the in-flight latch (R36). Reserved bits have no
storage: they read 0. -/
structure Sel where
  /-- `CTRL[0]`: 1 selects the fold path, 0 the table path. -/
  bulkSel : Bool
  /-- `CTRL[1]`: 1 routes every byte through the scalar stepper. -/
  scalarOnly : Bool
deriving DecidableEq, Repr

/-- A context slot (R30). -/
structure Slot where
  /-- `LIVE[c]`: the slot holds a Digest. -/
  live : Bool
  /-- `REG[c]`: the running CRC value, reflected. -/
  reg : Word
deriving DecidableEq, Repr

/-- The record of the in-flight latch (R36). -/
structure Latch where
  /-- The command word. -/
  w : Word
  /-- The copy of `ARG0`. -/
  a0 : Word
  /-- The copy of `ARG1`. -/
  a1 : Word
  /-- The copies of `CTRL.BULK_SEL` and `CTRL.SCALAR_ONLY`. -/
  sel : Sel
  /-- The count of bytes consumed, 0 at the start. -/
  i : Nat
  /-- The working CRC value of an APPEND. -/
  shadow : Word
deriving DecidableEq, Repr

/-- The builder progress (R41). -/
inductive BuilderProgress where
  | running
  | done
deriving DecidableEq, Repr

/-- The answer on the host's bus to an access of the register block (R21). -/
inductive HostReply where
  /-- A read returned this 64-bit value. -/
  | data (v : Word)
  /-- A write was taken. -/
  | written
  /-- The access is not an aligned 64-bit access: a bus error. -/
  | busError
deriving DecidableEq, Repr

/-- What happens next around the engine, one thing at a time (R70 item 4, R246, R253). Any interleaving of hosts, engine and
other agents is some list of these. -/
inductive Event where
  /-- The platform asserts and releases reset (R270). -/
  | reset
  /-- A host reads `bytes` bytes at the address `addr` of its own address space (R21). -/
  | hostRead (addr : Word) (bytes : Nat)
  /-- A host writes `v`, `bytes` bytes wide, at the address `addr` of its own address space (R21). -/
  | hostWrite (addr : Word) (bytes : Nat) (v : Word)
  /-- A store of any agent to one byte of host memory becomes visible at the read port (R65, R70). -/
  | memStore (addr : Word) (b : Byte)
  /-- The engine takes one small step: of an APPEND, one block or one byte (R198). -/
  | engineUnit
  /-- The engine runs the command in flight to its completion with nothing in between (R207). -/
  | engineRun
deriving DecidableEq, Repr

/-- The lookup-table store `T[k][b]`: 8 tables of 256 words (R40). -/
abbrev Tables := Vector (Vector Word 256) 8

/-- The whole state. -/
structure State where
  /-- The parameters of R4. No step changes them. -/
  params : Params
  /-- `T[k][b]` (R40). -/
  tables : Tables
  /-- `STATUS.TBL_READY` (R28, R40). -/
  tblReady : Bool
  /-- `STATUS.BUSY` (R28). -/
  busy : Bool
  /-- `STATUS.OVERRUN` (R28). -/
  overrun : Bool
  /-- `STATUS.ERRCODE` (R28). -/
  errcode : ErrCode
  /-- `CTRL` (R27). -/
  ctrl : Sel
  /-- `ARG0` (R31). -/
  arg0 : Word
  /-- `ARG1` (R31). -/
  arg1 : Word
  /-- `RESULT` (R32). -/
  result : Word
  /-- `LIVE[c]` and `REG[c]` (R30). Only the slots below `NUM_CTX` exist; no command reaches another. -/
  slots : Vector Slot 256
  /-- `INFLIGHT` (R36). -/
  inflight : Option Latch
  /-- The builder progress (R41). -/
  builder : BuilderProgress
  /-- Whether the first host access after reset has taken effect, on which the builder waits (R122 item 1). -/
  accessed : Bool
  /-- Host memory as the read port sees it (R60), in the canonical form `Memory.wf`. -/
  mem : List Host.Cell
  /-- The values that stores displaced since the command in flight was accepted, newest first (R70 item 3). -/
  window : List Host.Cell
  /-- The MODEL's own field: how many commands were accepted, the counter the free value `Config.raceDraw` is applied to. -/
  draws : Nat
  /-- The addresses the current or last command read through the port, in order (R61, R63). -/
  portReads : List Word
  /-- The answer on the host's bus to the last host access (R21). -/
  reply : Option HostReply
  /-- What happens next, first event first (R70). When it is empty the engine runs. -/
  events : List Event
deriving DecidableEq, Repr

/-- Why a step could stop the machine with a fault. There is no constructor: the spec gives the engine no trap and no stop
(R244), and answers every failure with an error code or a host bus error. Raised by nothing; safe. -/
inductive Fault where
deriving DecidableEq, Repr

/-- Why a step could refuse. -/
inductive Refusal where
  /-- An instruction that has no meaning yet, by its mnemonic. Raised by `exec` alone; safe. No arm of this model raises it. -/
  | notModelled (mnemonic : String)
deriving DecidableEq, Repr

/-- `n` equal-shaped entries, the `i`-th of them `f i`. -/
def vectorOf {α : Type} (n : Nat) (f : Nat → α) : Vector α n := ⟨((List.range n).map f).toArray, by simp⟩

/-- The machine right after reset (R270). `REG[c]` and `T[k][b]` have no reset value in the spec: 0 here (log 1, log 2).
Memory lists nothing (log 3). -/
def State.reset : State :=
  { params := Config.params
    tables := vectorOf 8 fun _ => vectorOf 256 fun _ => 0#64
    tblReady := false
    busy := true
    overrun := false
    errcode := .ok
    ctrl := { bulkSel := false, scalarOnly := false }
    arg0 := 0#64
    arg1 := 0#64
    result := 0#64
    slots := vectorOf 256 fun _ => { live := false, reg := 0#64 }
    inflight := none
    builder := .running
    accessed := false
    mem := []
    window := []
    draws := 0
    portReads := []
    reply := none
    events := [] }

end Sys2Proof.Machine
end

