-- ==== Sys2Proof/Machine/Parameters.lean ====
section
/-! DEFINITION. The polynomial parameter engine (R100 to R105), the identity values (R24) and the readings of the OPEN
parameters (R4). Constants only: "No logic, pure data". -/

namespace Sys2Proof.Machine

/-- `WIDTH` (R100). -/
def polyWidth : Nat := 64

/-- `POLY`, the generator polynomial in reflected form (R101). -/
def poly : Word := 0x9a6c9329ac4bc9b5#64

/-- The normal (unreflected) form of the polynomial (R101). -/
def polyNormal : Word := 0xad93d23594c93659#64

/-- `INIT` (R102). -/
def crcInit : Word := 0xFFFFFFFFFFFFFFFF#64

/-- `REFIN` (R103). -/
def refIn : Bool := true

/-- `REFOUT` (R103). -/
def refOut : Bool := true

/-- `XOROUT` (R104). -/
def xorOut : Word := 0xFFFFFFFFFFFFFFFF#64

/-- `CHECK` (R105). It is an input to no computation. -/
def crcCheck : Word := 0xae8b14860a799888#64

/-- `ID` (R24). -/
def idValue : Word := 0x4D564E3436435243#64

/-- `VERSION` (R24). -/
def versionValue : Word := 0x0000000000000001#64

/-- `N_TABLES` (R4, R120). -/
def nTables : Nat := 8

/-- `NUM_CTX` (R4). -/
def numCtx (p : Params) : Nat := p.numCtxM1.toNat + 1

/-- `LANES` (R4). -/
def lanes (p : Params) : Nat := p.lanesM1.val + 1

/-- `BLOCKSIZE = 8 * LANES` bytes (R4). -/
def blockSize (p : Params) : Nat := 8 * lanes p

/-- `REG_BASE` (R4). -/
def regBase (p : Params) : Word := p.regBaseHi ++ 0#8

/-- The range holds the address. -/
def rangeCovers (r : AddrRange) (a : Word) : Bool := decide (r.base ≤ a.toNat ∧ a.toNat < r.base + r.size)

/-- `mem_fault : u64 -> Bool` (R62). -/
def memFault (p : Params) (a : Word) : Bool := p.faultAt.any (rangeCovers · a)

/-- The platform answers no read of this address (R291). -/
def memSilent (p : Params) (a : Word) : Bool := p.silentAt.any (rangeCovers · a)

end Sys2Proof.Machine
end

