-- ==== Sys2Proof/Machine/Flags.lean ====
section
/-! DEFINITION. The flag and field words a host reads: `ERRCODE`, `STATUS`, `CTRL`, `CAP`, `P_FLAGS` (R25 to R28, R240). The
engine has no arithmetic flags (R33). -/

namespace Sys2Proof.Machine

/-- The numeric error codes (R240). -/
def errCodeBits : ErrCode → BitVec 8
  | .ok => 0x00#8
  | .illegal => 0x01#8
  | .badCtx => 0x02#8
  | .deadCtx => 0x03#8
  | .noSlot => 0x04#8
  | .badArg => 0x05#8
  | .nullPtr => 0x06#8
  | .range => 0x07#8
  | .bus => 0x08#8

/-- `STATUS`: `BUSY` at bit 0, `TBL_READY` at 1, `OVERRUN` at 2, `ERRCODE` at `[15:8]`, the rest 0 (R28). -/
def statusWord (s : State) : Word :=
  0#48 ++ errCodeBits s.errcode ++ 0#5 ++ BitVec.ofBool s.overrun ++ BitVec.ofBool s.tblReady ++ BitVec.ofBool s.busy

/-- `CTRL`: `BULK_SEL` at bit 0, `SCALAR_ONLY` at 1, the rest 0 (R27). -/
def ctrlWord (c : Sel) : Word := 0#62 ++ BitVec.ofBool c.scalarOnly ++ BitVec.ofBool c.bulkSel

/-- What a write of `v` leaves in `CTRL`: `BULK_SEL <- v[0] & HAS_CLMUL`, `SCALAR_ONLY <- v[1]` (R27). -/
def ctrlWritten (p : Params) (v : Word) : Sel :=
  { bulkSel := v.getLsbD 0 && p.hasClmul, scalarOnly := v.getLsbD 1 }

/-- `CAP`: `NUM_CTX - 1` at `[7:0]`, 8 at `[15:8]`, `LANES` at `[23:16]`, `HAS_CLMUL` at 24, the rest 0 (R25). -/
def capWord (p : Params) : Word :=
  0#39 ++ BitVec.ofBool p.hasClmul ++ BitVec.ofNat 8 (lanes p) ++ BitVec.ofNat 8 nTables ++ p.numCtxM1

/-- `P_FLAGS`: `REFIN` at bit 0, `REFOUT` at 1, the rest 0 (R26). -/
def pFlagsWord : Word := 0#62 ++ BitVec.ofBool refOut ++ BitVec.ofBool refIn

end Sys2Proof.Machine
end

