-- ==== Sys2Proof/Machine/Stepper.lean ====
section
/-! DEFINITION. The arithmetic of the engine as pure functions: the scalar stepper (R140 to R142), the table builder's entries
(R121), the bulk stepper with its two paths (R161 to R168) and the routing of an append (R165). -/

namespace Sys2Proof.Machine

/-- The one-bit reduction step (R140). -/
def step1 (r : Word) : Word := if r.getLsbD 0 then (r >>> 1) ^^^ poly else r >>> 1

/-- The scalar stepper (R140): the ground truth of every result (R141). -/
def advance (r : Word) (b : Byte) : Word := step1^[8] (r ^^^ zext64 b)

/-- The scalar stepper over a byte sequence, first byte first (R142). -/
def scan (r : Word) : List Byte → Word
  | [] => r
  | b :: d => scan (advance r b) d

/-- The entry `T[k][b]` that the table builder computes (R121). -/
def tableEntry (k b : Nat) : Word := step1^[64] (BitVec.ofNat 64 b <<< (8 * k))

/-- The table store as the builder leaves it: 8 tables of 256 entries (R120, R121). Neither `INIT` nor `XOROUT` enters it
(R126). -/
def builtTables : Tables := vectorOf 8 fun k => vectorOf 256 fun b => tableEntry k b

/-- `T[k][b]` read from a table store. -/
def lookup (T : Tables) (k : Fin 8) (b : Byte) : Word := T[k][b.toNat]'(b.isLt)

/-- One lane step of the table path (R161): byte `k` of `r ^ w` indexes table `k`. -/
def wordStep (T : Tables) (r w : Word) : Word :=
  let x := r ^^^ w
  lookup T 0 (byteAt x 0) ^^^ lookup T 1 (byteAt x 1) ^^^ lookup T 2 (byteAt x 2) ^^^ lookup T 3 (byteAt x 3)
    ^^^ lookup T 4 (byteAt x 4) ^^^ lookup T 5 (byteAt x 5) ^^^ lookup T 6 (byteAt x 6) ^^^ lookup T 7 (byteAt x 7)

/-- The lanes of a block: lane `j` is `le64(d[8j .. 8j+8))`, for `j` below `n` (R162). -/
def laneWords : Nat → List Byte → List Word
  | 0, _ => []
  | n + 1, d => le64 (d.take 8) :: laneWords n (d.drop 8)

/-- The table path on one block of `8 * n` bytes, each lane chained through the register (R163). -/
def advanceBlock (T : Tables) (n : Nat) (r : Word) (d : List Byte) : Word := (laneWords n d).foldl (wordStep T) r

/-- The carry-less multiply of 64-bit values, the fold path's primitive: bit `k` of the 128-bit result is the XOR of
`a[i] & b[j]` over `i + j = k` (R107). -/
def clmul (a b : Word) : BitVec 128 :=
  (List.range 64).foldl (fun acc i => if a.getLsbD i then acc ^^^ (b.setWidth 128 <<< i) else acc) 0#128

/-- The fold path on one block. Its algorithm is not specified, and its result must be the table path's on every input; a
model takes it to be that (R167, R168). -/
def foldBlock (T : Tables) (n : Nat) (r : Word) (d : List Byte) : Word := advanceBlock T n r d

/-- The bulk stepper on one block: `BULK_SEL` selects the path (R165, R167). -/
def bulkBlock (T : Tables) (n : Nat) (sel : Sel) (r : Word) (d : List Byte) : Word :=
  if sel.bulkSel then foldBlock T n r d else advanceBlock T n r d

/-- `nb` full blocks of `8 * n` bytes through the bulk stepper, then the rest byte by byte through the scalar stepper
(R165, R146). -/
def bulkBlocks (T : Tables) (n : Nat) (sel : Sel) : Nat → Word → List Byte → Word
  | 0, r, d => scan r d
  | nb + 1, r, d => bulkBlocks T n sel nb (bulkBlock T n sel r (d.take (8 * n))) (d.drop (8 * n))

/-- The digest's update for a whole byte range, with `LANES = n` (R165). Blocks are counted from the first byte of the
range (R166). -/
def appendBytes (T : Tables) (n : Nat) (sel : Sel) (r : Word) (d : List Byte) : Word :=
  if sel.scalarOnly then scan r d else bulkBlocks T n sel (d.length / (8 * n)) r d

end Sys2Proof.Machine
end

