-- ==== Sys2Proof/Machine/Ops.lean ====
section
/-! DEFINITION. The shared operations: host memory, the read port, the context slots, and the command cycle (acceptance,
checks, completion, errors). -/

namespace Sys2Proof.Machine

/-! ### Host memory as plain data (R60) -/

/-- What an unlisted address of host memory reads as (log 3). -/
def Memory.blank : Byte := 0#8

/-- The byte at address `a`. -/
def Memory.read : List Host.Cell → Nat → Byte
  | [], _ => Memory.blank
  | c :: m, a => if c.1 = a then c.2 else Memory.read m a

/-- The list `c :: m`, less `c` when it lists what an unlisted address reads as anyway. -/
def Memory.cons (c : Host.Cell) (m : List Host.Cell) : List Host.Cell := if c.2 = Memory.blank then m else c :: m

/-- The memory after a store of `b` at address `a`, in canonical form again. -/
def Memory.write : List Host.Cell → Nat → Byte → List Host.Cell
  | [], a, b => Memory.cons (a, b) []
  | c :: m, a, b =>
    if a < c.1 then Memory.cons (a, b) (c :: m)
    else if a = c.1 then Memory.cons (a, b) m
    else c :: Memory.write m a b

/-- The canonical form: addresses strictly rising, each a 64-bit address, no entry equal to what an unlisted address reads
as. -/
def Memory.wf (m : List Host.Cell) : Bool :=
  decide (m.Pairwise (fun c d => c.1 < d.1)) && m.all (fun c => decide (c.1 < 2 ^ 64) && c.2 != Memory.blank)

/-- A store to host memory becomes visible at the read port. While a command is in flight, the value it displaces stays one
of those a racing read may return (R70 item 3). -/
def memStore (a : Word) (b : Byte) (s : State) : State :=
  { s with
    mem := Memory.write s.mem a.toNat b
    window := if s.inflight.isSome then (a.toNat, Memory.read s.mem a.toNat) :: s.window else s.window }

/-! ### The read port (R62, R63, R70, R198) -/

/-- The outcome of `MemRead(addr, 1)` (R62); `silent` is a read the platform never answers (R291). -/
inductive ReadOutcome where
  | byte (v : Byte)
  | busFault
  | silent
deriving DecidableEq, Repr

/-- The values the byte at `a` held since the command in flight was accepted: the present one first (R70 item 3). -/
def heldValues (a : Nat) (s : State) : List Byte :=
  Memory.read s.mem a :: (s.window.filter (fun c => c.1 == a)).map Prod.snd

/-- The byte the read of the `i`-th address returns: the byte in memory where no store raced it; else one of the values it
held during the window, a free value (R70 item 3). -/
def portByte (a : Nat) (i : Nat) (s : State) : Byte :=
  match heldValues a s with
  | [v] => v
  | vs => vs.getD (Config.raceDraw s.draws i % vs.length) Memory.blank

/-- The `i`-th address of the range of the command in flight: `a0 + i` (R63, R111). -/
def rangeAddr (L : Latch) (i : Nat) : Word := L.a0 + BitVec.ofNat 64 i

/-- `MemRead(a0 + i, 1)` (R62, R69). -/
def memRead (L : Latch) (i : Nat) (s : State) : ReadOutcome :=
  if memSilent s.params (rangeAddr L i) then .silent
  else if memFault s.params (rangeAddr L i) then .busFault
  else .byte (portByte (rangeAddr L i).toNat i s)

/-- The outcome of `read_range` (R198): the bytes; or the count of bytes read before the first fault; or a read that is
never answered. -/
inductive RangeOutcome where
  | bytes (d : List Byte)
  | busFault (before : Nat)
  | silent
deriving DecidableEq, Repr

/-- Put one byte in front of an outcome. -/
def consByte (v : Byte) : RangeOutcome → RangeOutcome
  | .bytes d => .bytes (v :: d)
  | .busFault k => .busFault (k + 1)
  | .silent => .silent

/-- `n` bytes of the range of the command in flight, from index `i`, read in index order up to the first fault
(R63, R198). -/
def readRange (L : Latch) (i : Nat) : Nat → State → RangeOutcome
  | 0, _ => .bytes []
  | n + 1, s =>
    match memRead L i s with
    | .silent => .silent
    | .busFault => .busFault 0
    | .byte v => consByte v (readRange L (i + 1) n s)

/-- Note the reads at indices `i .. i + n - 1` as made. -/
def logReads (L : Latch) (i n : Nat) (s : State) : State :=
  { s with portReads := s.portReads ++ (List.range' i n).map (rangeAddr L) }

/-! ### Context slots (R30, R194) -/

/-- A free slot that was never created or was destroyed (R202). -/
def freeSlot : Slot := { live := false, reg := 0#64 }

/-- Slot `c`. -/
def slotAt (c : Nat) (s : State) : Slot := (s.slots[c]?).getD freeSlot

/-- The slots after the staged change, if there is one (R193). -/
def applyStaged (staged : Option (Nat × Slot)) (v : Vector Slot 256) : Vector Slot 256 :=
  match staged with
  | some (c, x) => v.setIfInBounds c x
  | none => v

/-- `check_ctx(c)` (R194): the error it completes with, if any. -/
def checkCtx (c : Nat) (s : State) : Option ErrCode :=
  if numCtx s.params ≤ c then some .badCtx
  else if (slotAt c s).live then none
  else some .deadCtx

/-- The least index with `LIVE[c] = 0`, if a slot is free (R196). -/
def leastFree (s : State) : Option Nat := (List.range (numCtx s.params)).find? (fun c => !(slotAt c s).live)

/-! ### The command cycle (R191 to R193) -/

/-- The latch a command word accepted now gets (R36, R191). -/
def newLatch (w : Word) (s : State) : Latch :=
  { w := w, a0 := s.arg0, a1 := s.arg1, sel := s.ctrl, i := 0, shadow := 0#64 }

/-- Acceptance of a command word (R191). The window of R70 item 3 opens, and no read is made yet. -/
def accept (w : Word) (s : State) : State :=
  { s with inflight := some (newLatch w s), busy := true, window := [], portReads := [], draws := s.draws + 1 }

/-- A write of a word to `CMD`: accepted when idle, else dropped with `OVERRUN` (R191). -/
def issueCommand (w : Word) (s : State) : State := if s.busy then { s with overrun := true } else accept w s

/-- The latch a meaning takes its operands from: that of the command in flight; with none in flight, the one a command
accepted now would get (log 9). -/
def operandLatch (s : State) : Latch := s.inflight.getD (newLatch 0#64 s)

/-- `complete(err, res)` with the command's staged change of a slot (R192), all in one step. The window closes. -/
def complete (err : ErrCode) (res : Option Word) (staged : Option (Nat × Slot)) (s : State) : State :=
  { s with
    errcode := err
    result := if err = .ok then res.getD s.result else s.result
    slots := if err = .ok then applyStaged staged s.slots else s.slots
    inflight := none
    busy := false
    window := [] }

/-- `raise Error(code)` (R241): the one way every error is taken. There is no handler and no return from it (R244, R247). -/
def raiseError (code : ErrCode) (s : State) : State := complete code none none s

/-- The end of a command whose checks answer `e`: the error they find, with no other effect (R193 item 1); else `t`. -/
def orRaise (e : Option ErrCode) (s t : State) : State :=
  match e with
  | some code => raiseError code s
  | none => t

/-! ### The table builder and reset (R122, R270) -/

/-- The builder writes every entry and finishes (R122 items 2 and 3). -/
def finishBuild (s : State) : State := { s with tables := builtTables, tblReady := true, builder := .done, busy := false }

/-- A turn of the running builder: it does not finish before the first host access after reset has taken effect (R122
item 1). -/
def builderTurn (s : State) : State := if s.accessed then finishBuild s else s

/-- Reset asserted and released (R270, R272): every piece of engine state takes its reset value, a command in flight is
abandoned, host memory and the parameters stay. The count of draws goes on, so that no free value is drawn twice. -/
def resetEngine (s : State) : State :=
  { State.reset with params := s.params, mem := s.mem, draws := s.draws, events := s.events }

end Sys2Proof.Machine
end

