-- ==== Sys2Proof/Machine/Operands.lean ====
section
/-! DEFINITION. Each command's reading of its operands `a0` and `a1`, and the checks on them in the order of its pseudocode
(R82, R125, R145, R197, R199). -/

namespace Sys2Proof.Machine

/-- APPEND's own checks: `NULL_PTR` before `RANGE`, the sum taken without wrap (R197, R242). -/
def appendArgError (L : Latch) : Option ErrCode :=
  if L.a0 = 0#64 ∧ L.a1 ≠ 0#64 then some .nullPtr
  else if L.a0.toNat + L.a1.toNat > 2 ^ 64 then some .range
  else none

/-- Every check of an APPEND that is made before any memory read: `BAD_CTX`, `DEAD_CTX`, then its own (R193, R242). -/
def appendError (c : Nat) (L : Latch) (s : State) : Option ErrCode := (checkCtx c s).or (appendArgError L)

/-- The length of an APPEND's range in bytes (R82). -/
def appendLength (L : Latch) : Nat := L.a1.toNat

/-- The register value an APPEND goes on from: `REG[ctx]` before the first byte, then `shadow` (R198). -/
def workingReg (c : Nat) (L : Latch) (s : State) : Word := if L.i = 0 then (slotAt c s).reg else L.shadow

/-- How many bytes the next engine step of an APPEND consumes: a whole block where one starts and fits, else one byte
(R165, R166). -/
def unitLength (p : Params) (L : Latch) : Nat :=
  if L.sel.scalarOnly = false ∧ L.i % blockSize p = 0 ∧ L.i + blockSize p ≤ appendLength L then blockSize p else 1

/-- APPEND_IMM's check: at most 8 bytes (R199). -/
def appendImmArgError (L : Latch) : Option ErrCode := if L.a1.toNat > 8 then some .badArg else none

/-- APPEND_IMM's data: the low `a1` bytes of `a0`, least significant first (R82, R199). -/
def appendImmBytes (L : Latch) : List Byte := lowBytes L.a0 L.a1.toNat

/-- STEP_BYTE's check: `a1[63:8]` must be 0 (R82, R145). -/
def stepByteArgError (L : Latch) : Option ErrCode := if L.a1.toNat > 0xFF then some .badArg else none

/-- STEP_BYTE's byte: `a1[7:0]` (R82, R145). -/
def stepByteOperand (L : Latch) : Byte := byteAt L.a1 0

/-- TBL_READ's check: `a0 <= 7` and `a1 <= 255` (R82, R125). -/
def tblReadArgError (L : Latch) : Option ErrCode := if L.a0.toNat > 7 ∨ L.a1.toNat > 255 then some .badArg else none

/-- TBL_READ's table number `k` (R82, R125): used only where `a0 <= 7`. -/
def tblReadTable (L : Latch) : Fin 8 := Fin.ofNat 8 L.a0.toNat

/-- TBL_READ's entry index `b` (R82, R125): used only where `a1 <= 255`. -/
def tblReadIndex (L : Latch) : Byte := byteAt L.a1 0

/-- The staged change that gives slot `c` the register value `r`; the slot stays as live as it is (R193). -/
def stageReg (c : Nat) (r : Word) (s : State) : Option (Nat × Slot) := some (c, { slotAt c s with reg := r })

end Sys2Proof.Machine
end

