-- ==== Sys2Proof/Machine/Digest.lean ====
section
/-! DEFINITION. The commands of the digest state machine and NOP (R195 to R202), and the small engine step of an APPEND
(R198). Every meaning answers a next state: each error is a completion with a code (R241). -/

namespace Sys2Proof.Machine

/-- NOP (R195). -/
def execNop (s : State) : Host.Outcome State Fault Refusal := .next (complete .ok none none s)

/-- CREATE (R196): the lowest free slot gets `INIT`, and `RESULT` its number; `NO_SLOT` when none is free. -/
def execCreate (s : State) : Host.Outcome State Fault Refusal :=
  .next (match leastFree s with
    | none => raiseError .noSlot s
    | some c => complete .ok (some (BitVec.ofNat 64 c)) (some (c, { live := true, reg := crcInit })) s)

/-- The end of an APPEND whose range from index `L.i` had the outcome `o`: the register after its bytes goes into the slot,
or the error `BUS` and nothing does (R197, R198). A range with a read that is never answered leaves the command in flight
(R291). -/
def finishAppend (c : Nat) (L : Latch) (o : RangeOutcome) (s : State) : State :=
  match o with
  | .silent => s
  | .busFault k => raiseError .bus (logReads L L.i (k + 1) s)
  | .bytes d =>
    complete .ok none (stageReg c (appendBytes s.tables (lanes s.params) L.sel (workingReg c L s) d) s)
      (logReads L L.i (appendLength L - L.i) s)

/-- APPEND (R197, R198), from its present progress to its completion. -/
def execAppend (c : Nat) (s : State) : Host.Outcome State Fault Refusal :=
  let L := operandLatch s
  .next (orRaise (appendError c L s) s (finishAppend c L (readRange L L.i (appendLength L - L.i) s) s))

/-- APPEND_IMM (R199). -/
def execAppendImm (c : Nat) (s : State) : Host.Outcome State Fault Refusal :=
  let L := operandLatch s
  .next (orRaise ((checkCtx c s).or (appendImmArgError L)) s
    (complete .ok none
      (stageReg c (appendBytes s.tables (lanes s.params) L.sel (slotAt c s).reg (appendImmBytes L)) s) s))

/-- CHECKSUM (R200): `REG[ctx] ^ XOROUT`, with no bit reversal (R103). -/
def execChecksum (c : Nat) (s : State) : Host.Outcome State Fault Refusal :=
  .next (orRaise (checkCtx c s) s (complete .ok (some ((slotAt c s).reg ^^^ xorOut)) none s))

/-- GETREG (R201): `REG[ctx]`. -/
def execGetreg (c : Nat) (s : State) : Host.Outcome State Fault Refusal :=
  .next (orRaise (checkCtx c s) s (complete .ok (some (slotAt c s).reg) none s))

/-- DESTROY (R202): `LIVE[ctx] <- 0`, `REG[ctx] <- 0`. -/
def execDestroy (c : Nat) (s : State) : Host.Outcome State Fault Refusal :=
  .next (orRaise (checkCtx c s) s (complete .ok none (some (c, freeSlot)) s))

/-- The state after an APPEND's next block or byte, of `n` bytes, whose reads had the outcome `o`: consumed into `shadow`
(R198); or the error `BUS`; or no change while a read is not answered (R291). -/
def consumeUnit (c : Nat) (L : Latch) (n : Nat) (o : RangeOutcome) (s : State) : State :=
  match o with
  | .silent => s
  | .busFault k => raiseError .bus (logReads L L.i (k + 1) s)
  | .bytes d =>
    { logReads L L.i n s with
      inflight := some
        { L with i := L.i + n, shadow := appendBytes s.tables (lanes s.params) L.sel (workingReg c L s) d } }

/-- One small engine step of an APPEND in flight, where there is one to take: the next block or byte is read and consumed
(R165, R198). `none` where a check fails or every byte is consumed: the command then completes. -/
def appendUnit (c : Nat) (s : State) : Option State :=
  let L := operandLatch s
  let n := unitLength s.params L
  if appendError c L s = none ∧ L.i < appendLength L then some (consumeUnit c L n (readRange L L.i n s) s) else none

/-- The small engine step a command in flight takes before its completion: only an APPEND has one. -/
def commandUnit (i : Instr) (s : State) : Option State :=
  match i with
  | .nop => none
  | .create => none
  | .append c => appendUnit c s
  | .appendImm _ => none
  | .checksum _ => none
  | .getreg _ => none
  | .destroy _ => none
  | .stepByte => none
  | .stepWord => none
  | .tblRead => none

end Sys2Proof.Machine
end

