-- ==== Sys2Proof/Machine/Oracle.lean ====
section
/-! DEFINITION. The stateless commands that expose the steppers and the table store: STEP_BYTE (R145), STEP_WORD (R169) and
TBL_READ (R125). -/

namespace Sys2Proof.Machine

/-- STEP_BYTE (R145): `advance(a0, a1[7:0])`. -/
def execStepByte (s : State) : Host.Outcome State Fault Refusal :=
  let L := operandLatch s
  .next (orRaise (stepByteArgError L) s (complete .ok (some (advance L.a0 (stepByteOperand L))) none s))

/-- STEP_WORD (R169): `word_step(a0, a1)` through the table store. -/
def execStepWord (s : State) : Host.Outcome State Fault Refusal :=
  let L := operandLatch s
  .next (complete .ok (some (wordStep s.tables L.a0 L.a1)) none s)

/-- TBL_READ (R125): `T[a0][a1]`. -/
def execTblRead (s : State) : Host.Outcome State Fault Refusal :=
  let L := operandLatch s
  .next (orRaise (tblReadArgError L) s (complete .ok (some (lookup s.tables (tblReadTable L) (tblReadIndex L))) none s))

end Sys2Proof.Machine
end

