-- ==== Sys2Proof/Machine/Dispatch.lean ====
section
/-! DEFINITION. The dispatch: one arm per command. -/

namespace Sys2Proof.Machine

def exec (i : Instr) (s : State) : Host.Outcome State Fault Refusal :=
  match i with
  | .nop => Sys2Proof.Machine.execNop s
  | .create => Sys2Proof.Machine.execCreate s
  | .append c => Sys2Proof.Machine.execAppend c s
  | .appendImm c => Sys2Proof.Machine.execAppendImm c s
  | .checksum c => Sys2Proof.Machine.execChecksum c s
  | .getreg c => Sys2Proof.Machine.execGetreg c s
  | .destroy c => Sys2Proof.Machine.execDestroy c s
  | .stepByte => Sys2Proof.Machine.execStepByte s
  | .stepWord => Sys2Proof.Machine.execStepWord s
  | .tblRead => Sys2Proof.Machine.execTblRead s

end Sys2Proof.Machine
end

