-- ==== Sys2Proof/Machine/RegisterBlock.lean ====
section
/-! DEFINITION. The register block (R21 to R32): the map, host reads and writes of it, and which host accesses reach it. -/

namespace Sys2Proof.Machine

/-- The registers of the map (R22). -/
inductive Reg where
  | id | version | cap | pWidth | pPoly | pInit | pXorout | pFlags | pCheck
  | ctrl | status | cmd | arg0 | arg1 | result
deriving DecidableEq, Repr

/-- The registers in the order of the map. -/
def allRegs : List Reg :=
  [.id, .version, .cap, .pWidth, .pPoly, .pInit, .pXorout, .pFlags, .pCheck, .ctrl, .status, .cmd, .arg0, .arg1, .result]

/-- The offset of a register (R22). -/
def regOffset : Reg → Nat
  | .id => 0x00
  | .version => 0x08
  | .cap => 0x10
  | .pWidth => 0x18
  | .pPoly => 0x20
  | .pInit => 0x28
  | .pXorout => 0x30
  | .pFlags => 0x38
  | .pCheck => 0x40
  | .ctrl => 0x48
  | .status => 0x50
  | .cmd => 0x58
  | .arg0 => 0x60
  | .arg1 => 0x68
  | .result => 0x70

/-- The register at an offset; `none` at a reserved offset, `0x78` to `0xF8` (R23). -/
def regAt (off : Nat) : Option Reg := allRegs.find? (fun r => regOffset r == off)

/-- What a host reads from a register (R22). `CMD` is write-only and reads 0 (R29). -/
def regValue (r : Reg) (s : State) : Word :=
  match r with
  | .id => idValue
  | .version => versionValue
  | .cap => capWord s.params
  | .pWidth => BitVec.ofNat 64 polyWidth
  | .pPoly => poly
  | .pInit => crcInit
  | .pXorout => xorOut
  | .pFlags => pFlagsWord
  | .pCheck => crcCheck
  | .ctrl => ctrlWord s.ctrl
  | .status => statusWord s
  | .cmd => 0#64
  | .arg0 => s.arg0
  | .arg1 => s.arg1
  | .result => s.result

/-- The state after a host write of a register. A write of a read-only register has no effect (R23); of the bits written to
`STATUS` only bit 2 acts, and clears `OVERRUN` (R28); a write of `CMD` issues a command (R29). -/
def regWrite (r : Reg) (v : Word) (s : State) : State :=
  match r with
  | .id => s
  | .version => s
  | .cap => s
  | .pWidth => s
  | .pPoly => s
  | .pInit => s
  | .pXorout => s
  | .pFlags => s
  | .pCheck => s
  | .ctrl => { s with ctrl := ctrlWritten s.params v }
  | .status => if v.getLsbD 2 then { s with overrun := false } else s
  | .cmd => issueCommand v s
  | .arg0 => { s with arg0 := v }
  | .arg1 => { s with arg1 := v }
  | .result => s

/-- `HostRead(off)` (R8): a reserved offset reads 0 (R23). -/
def hostReadValue (off : Nat) (s : State) : Word :=
  match regAt off with
  | some r => regValue r s
  | none => 0#64

/-- `HostWrite(off, v)` (R8): a write to a reserved offset has no effect (R23). -/
def hostWriteEffect (off : Nat) (v : Word) (s : State) : State :=
  match regAt off with
  | some r => regWrite r v s
  | none => s

/-- Where a host access falls. -/
inductive BlockAccess where
  /-- An aligned 64-bit access of the block, at this offset. -/
  | slot (off : Nat)
  /-- It touches the block and is not an aligned 64-bit access. -/
  | busError
  /-- It touches no byte of the block. -/
  | elsewhere
deriving DecidableEq, Repr

/-- Where an access of `n` bytes at the address `a` falls: the block is the 256 bytes at `REG_BASE`, and only aligned 64-bit
accesses of it are defined (R21). -/
def blockAccess (p : Params) (a : Word) (n : Nat) : BlockAccess :=
  if a.toNat < (regBase p).toNat + 256 ∧ (regBase p).toNat < a.toNat + n then
    if n = 8 ∧ a.toNat % 8 = 0 then .slot (a.toNat - (regBase p).toNat) else .busError
  else .elsewhere

/-- A host read access (R21): the answer goes on the host's bus. A bus error has no effect on engine state. -/
def hostRead (a : Word) (n : Nat) (s : State) : State :=
  match blockAccess s.params a n with
  | .slot off => { s with accessed := true, reply := some (.data (hostReadValue off s)) }
  | .busError => { s with reply := some .busError }
  | .elsewhere => { s with reply := none }

/-- A host write access (R21). -/
def hostWrite (a : Word) (n : Nat) (v : Word) (s : State) : State :=
  match blockAccess s.params a n with
  | .slot off => { hostWriteEffect off v s with accessed := true, reply := some .written }
  | .busError => { s with reply := some .busError }
  | .elsewhere => { s with reply := none }

end Sys2Proof.Machine
end

