-- ==== Sys2Proof/Machine/Step.lean ====
section
/-! DEFINITION. One step of the machine: the next event of the queue takes effect (R70 item 4), or the engine runs. -/

namespace Sys2Proof.Machine

/-- Execution of an accepted command word (R193): a word of no row completes with `ILLEGAL` (R84). -/
def runWord (w : Word) (s : State) : Host.Outcome State Fault Refusal :=
  match decode w with
  | .ok i => exec i s
  | .error _ => .next (raiseError .illegal s)

/-- One small engine step of the command word in flight. -/
def runWordUnit (w : Word) (s : State) : Host.Outcome State Fault Refusal :=
  match decode w with
  | .ok i =>
    match commandUnit i s with
    | some t => .next t
    | none => exec i s
  | .error _ => .next (raiseError .illegal s)

/-- The engine runs: the builder, else the command in flight to its completion; else it is idle (R253). -/
def engineRun (s : State) : Host.Outcome State Fault Refusal :=
  match s.builder, s.inflight with
  | .running, _ => .next (builderTurn s)
  | .done, some L => runWord L.w s
  | .done, none => .next s

/-- The engine takes one small step. -/
def engineUnit (s : State) : Host.Outcome State Fault Refusal :=
  match s.builder, s.inflight with
  | .running, _ => .next (builderTurn s)
  | .done, some L => runWordUnit L.w s
  | .done, none => .next s

/-- The effect of one event. -/
def takeEvent (e : Event) (s : State) : Host.Outcome State Fault Refusal :=
  match e with
  | .reset => .next (resetEngine s)
  | .hostRead a n => .next (hostRead a n s)
  | .hostWrite a n v => .next (hostWrite a n v s)
  | .memStore a b => .next (memStore a b s)
  | .engineUnit => engineUnit s
  | .engineRun => engineRun s

/-- One step: the first event of the queue; with an empty queue the engine runs. -/
def step (s : State) : Host.Outcome State Fault Refusal :=
  match s.events with
  | [] => engineRun s
  | e :: rest => takeEvent e { s with events := rest }

/-- `s` with the word accepted as the command in flight and the engine's run of it next, so that `step` runs exactly it. A
builder that still runs finishes first: no command is accepted before it (R123). See log 10. -/
def State.withFetchWord (s : State) (nbits w : Nat) : State :=
  let s1 := match s.builder with
    | .running => finishBuild { s with accessed := true }
    | .done => s
  { accept (BitVec.ofNat 64 (w % 2 ^ nbits)) s1 with events := .engineRun :: s1.events }

end Sys2Proof.Machine
end

