-- ==== Sys2Proof/Machine/HostProgram.lean ====
section
/-! DEFINITION. The host notation (R87) and the pseudo-instructions (R88). It is not part of the engine: it stands for a
host's own loads, stores and branches on the register block. It runs in the atomic view (R207): after each access of the host
the engine runs to completion before the next. -/

namespace Sys2Proof.Machine

/-- A host scratch variable `%x` of 64 bits (R87). -/
abbrev HostVar := Fin 32

/-- What `wr` writes: a value or a variable's value (R87). -/
inductive HostValue where
  | lit (v : Word)
  | var (x : HostVar)
deriving DecidableEq, Repr

/-- The host notation (R87). A label is the index of a line of the program. -/
inductive HostOp where
  /-- `wr REG, v` -/
  | wr (r : Reg) (v : HostValue)
  /-- `rd %x, REG` -/
  | rd (x : HostVar) (r : Reg)
  /-- `bnz %x, m, L` -/
  | bnz (x : HostVar) (m : Word) (target : Nat)
  /-- `bz %x, m, L` -/
  | bz (x : HostVar) (m : Word) (target : Nat)
  /-- `addi %x, %y, n` -/
  | addi (x y : HostVar) (n : Word)
  /-- `li %x, n` -/
  | li (x : HostVar) (n : Word)
deriving DecidableEq, Repr

/-- A host running a program beside the engine. -/
structure HostRun where
  vars : Vector Word 32
  line : Nat
  engine : State
deriving DecidableEq, Repr

/-- The value of an operand of `wr`. -/
def hostValue (v : HostValue) (h : HostRun) : Word :=
  match v with
  | .lit n => n
  | .var x => h.vars[x]

/-- The host goes on to the next line, with `%x` set. -/
def setVar (x : HostVar) (v : Word) (h : HostRun) : HostRun :=
  { h with vars := h.vars.set x v, line := h.line + 1 }

/-- The address of a register in the host's address space: `REG_BASE + off` (R8). -/
def regAddr (r : Reg) (s : State) : Word := regBase s.params + BitVec.ofNat 64 (regOffset r)

/-- The value on the host's bus after a read. -/
def replyValue (s : State) : Word :=
  match s.reply with
  | some (.data v) => v
  | some .written => 0#64
  | some .busError => 0#64
  | none => 0#64

/-- One access of the host, then the engine runs (R207). -/
def hostAccess (e : Event) (h : HostRun) : Host.Outcome HostRun Fault Refusal :=
  match takeEvent e h.engine with
  | .fault r => .fault r
  | .refused r => .refused r
  | .next s =>
    match engineRun s with
    | .fault r => .fault r
    | .refused r => .refused r
    | .next t => .next { h with engine := t }

/-- One line of a host program (R87). -/
def hostOp (op : HostOp) (h : HostRun) : Host.Outcome HostRun Fault Refusal :=
  match op with
  | .wr r v =>
    match hostAccess (.hostWrite (regAddr r h.engine) 8 (hostValue v h)) h with
    | .next k => .next { k with line := k.line + 1 }
    | o => o
  | .rd x r =>
    match hostAccess (.hostRead (regAddr r h.engine) 8) h with
    | .next k => .next (setVar x (replyValue k.engine) k)
    | o => o
  | .bnz x m t => .next { h with line := if h.vars[x] &&& m ≠ 0#64 then t else h.line + 1 }
  | .bz x m t => .next { h with line := if h.vars[x] &&& m = 0#64 then t else h.line + 1 }
  | .addi x y n => .next (setVar x (h.vars[y] + n) h)
  | .li x n => .next (setVar x n h)

/-- One step of a host program: the line the host is at; past the last line it stays. -/
def hostStep (prog : List HostOp) (h : HostRun) : Host.Outcome HostRun Fault Refusal :=
  match prog[h.line]? with
  | some op => hostOp op h
  | none => .next h

/-- `n` steps of a host program. -/
def hostSteps (prog : List HostOp) : Nat → HostRun → Host.Outcome HostRun Fault Refusal
  | 0, h => .next h
  | n + 1, h =>
    match hostStep prog h with
    | .next k => hostSteps prog n k
    | o => o

/-! ### The pseudo-instructions (R88), placed at the line `line`, with the scratch variable `%s` -/

/-- `wait`: loop while `BUSY = 1`. -/
def hostWait (s : HostVar) (line : Nat) : List HostOp := [.rd s .status, .bnz s 0x1#64 line]

/-- `crc.issue w`: `wait`, `wr CMD, w`, `wait`. -/
def crcIssue (s : HostVar) (w : Word) (line : Nat) : List HostOp :=
  hostWait s line ++ [.wr .cmd (.lit w)] ++ hostWait s (line + 3)

/-- `crc.new %x`. -/
def crcNew (s x : HostVar) (line : Nat) : List HostOp := crcIssue s (encode .create) line ++ [.rd x .result]

/-- `crc.write c<n>, A, L`. -/
def crcWrite (s : HostVar) (n : Nat) (a l : HostValue) (line : Nat) : List HostOp :=
  [.wr .arg0 a, .wr .arg1 l] ++ crcIssue s (encode (.append n)) (line + 2)

/-- `crc.write_imm c<n>, D, L`. -/
def crcWriteImm (s : HostVar) (n : Nat) (d l : HostValue) (line : Nat) : List HostOp :=
  [.wr .arg0 d, .wr .arg1 l] ++ crcIssue s (encode (.appendImm n)) (line + 2)

/-- `crc.sum c<n>, %x`. -/
def crcSum (s x : HostVar) (n : Nat) (line : Nat) : List HostOp :=
  crcIssue s (encode (.checksum n)) line ++ [.rd x .result]

/-- `crc.free c<n>`. -/
def crcFree (s : HostVar) (n : Nat) (line : Nat) : List HostOp := crcIssue s (encode (.destroy n)) line

/-- `crc.err %x`: `%x[15:8]` is then `ERRCODE`. -/
def crcErr (x : HostVar) : List HostOp := [.rd x .status]

end Sys2Proof.Machine
end

