-- ==== Sys2Proof/Safety.lean ====
section
/-! DEFINITION. What holds of the engine in every reachable state, and the terms the statements use. -/

namespace Sys2Proof.Machine

/-- What every step keeps. -/
structure EngineInv (s : State) : Prop where
  /-- `BUSY = 1` exactly when a command is in flight or the builder runs (R36). -/
  busy_iff : s.busy = true ↔ (s.inflight.isSome = true ∨ s.builder = .running)
  /-- `TBL_READY = 1` exactly when the builder has finished (R40, R41). -/
  ready_iff : s.tblReady = true ↔ s.builder = .done
  /-- From then on the store holds the values of R121 (R122, R123). -/
  tables_built : s.builder = .done → s.tables = builtTables
  /-- No command is in flight while the builder runs (R122, R123). -/
  running_idle : s.builder = .running → s.inflight = none
  /-- The builder does not finish before the first host access (R122 item 1). -/
  accessed_first : s.builder = .done → s.accessed = true
  /-- `CTRL.BULK_SEL` is 0 without the fold path (R27). -/
  ctrl_legal : s.ctrl.bulkSel = true → s.params.hasClmul = true
  /-- So is its copy in the latch (R167). -/
  sel_legal : ∀ L, s.inflight = some L → L.sel.bulkSel = true → s.params.hasClmul = true
  /-- No slot at or above `NUM_CTX` is live (R30). -/
  slots_exist : ∀ c, numCtx s.params ≤ c → (slotAt c s).live = false
  /-- Host memory has its canonical form. -/
  mem_wf : Memory.wf s.mem = true
  /-- With no command in flight no store races one (R70 item 3). -/
  window_closed : s.inflight = none → s.window = []
  /-- The progress counter is bounded by the latched length (R35). -/
  progress_bounded : ∀ L, s.inflight = some L → L.i ≤ appendLength L
  /-- The reads made so far are those of the bytes consumed, each address once, in order (R63). -/
  reads_made : ∀ L, s.inflight = some L → s.portReads = (List.range L.i).map (rangeAddr L)
  /-- Only an APPEND that passed its checks has consumed a byte (R197, R198). -/
  only_append : ∀ L, s.inflight = some L → L.i ≠ 0 → ∃ c, decode L.w = .ok (.append c) ∧ appendError c L s = none

/-- The `n` bytes of host memory from address `a`, in increasing address order (R64). -/
def memBytes (s : State) (a n : Nat) : List Byte := (List.range n).map (fun j => Memory.read s.mem (a + j))

/-- The platform answers every read of the range of the command in flight (R291). -/
def RangeAnswered (s : State) (L : Latch) : Prop :=
  ∀ j, j < appendLength L → memSilent s.params (rangeAddr L j) = false

/-- The platform answers every read the command in flight makes: only an APPEND makes any (R61, R291). -/
def ReadsAnswered (s : State) (L : Latch) : Prop := ∀ c, decode L.w = .ok (.append c) → RangeAnswered s L

/-- No read of the range of the command in flight faults (R62). -/
def RangeReadable (s : State) (L : Latch) : Prop :=
  ∀ j, j < appendLength L → memFault s.params (rangeAddr L j) = false

/-- Slot `c` exists and is live: what `check_ctx` asks (R194). -/
def SlotLive (c : Nat) (s : State) : Prop := c < numCtx s.params ∧ (slotAt c s).live = true

/-- `s` with its events replaced: the same machine before another course of events. -/
def withEvents (es : List Event) (s : State) : State := { s with events := es }

/-- The command in flight ended with the code `e`, and nothing else changed (R241). -/
def ended (e : ErrCode) (s : State) : State := { s with errcode := e, inflight := none, busy := false, window := [] }

/-- The engine is idle with its tables built: a `CMD` write is accepted (R191, R282). -/
structure Idle (s : State) : Prop where
  not_busy : s.busy = false
  none_in_flight : s.inflight = none
  built : s.builder = .done
  tables_built : s.tables = builtTables

/-- The word that holds an operation code alone. -/
def zextOpc (opc : Byte) : Word := opc.setWidth 64

/-- The command `f c` is encoded with the operation code `opc` and the slot number in `CTX`, and with no other bit set
(R81, R83, R84). -/
def EncodedWithSlot (f : Nat → Instr) (opc : Byte) : Prop :=
  (∀ c, c < 256 → decode (BitVec.ofNat 64 (c * 256 + opc.toNat)) = .ok (f c)) ∧
  (∀ w, opcField w = opc → rsvField w ≠ 0#48 → ∃ e, decode w = .error e)

/-- The command `i` is encoded as its operation code alone: with any other bit set the word is illegal (R83, R84). -/
def EncodedPlain (i : Instr) (opc : Byte) : Prop :=
  decode (zextOpc opc) = .ok i ∧ ∀ w, opcField w = opc → w ≠ zextOpc opc → ∃ e, decode w = .error e

/-- The command `f c` fails with `BAD_CTX` on a slot that does not exist and with `DEAD_CTX` on one that is not live, with no
other effect (R194, R241). -/
def RefusesDeadSlots (f : Nat → Instr) : Prop :=
  ∀ (s : State) (c : Nat),
    (numCtx s.params ≤ c → exec (f c) s = .next (ended .badCtx s)) ∧
    (c < numCtx s.params → (slotAt c s).live = false → exec (f c) s = .next (ended .deadCtx s))

/-- A host's 64-bit read at the offset `off` of the register block answers with `f` of the state, and leaves the engine as it
is (R21, R67). -/
def ReadsAs (off : Nat) (f : State → Word) : Prop :=
  ∀ (s : State) (rest : List Event),
    s.events = .hostRead (regBase s.params + BitVec.ofNat 64 off) 8 :: rest →
    step s = .next { s with events := rest, accessed := true, reply := some (.data (f s)) }

/-- A host's 64-bit write of `v` at the offset `off` of the register block takes the engine from `s` to `f v s`, where `f`
changes engine registers only (R21). -/
def WritesAs (off : Nat) (f : Word → State → State) : Prop :=
  ∀ (s : State) (v : Word) (rest : List Event),
    s.events = .hostWrite (regBase s.params + BitVec.ofNat 64 off) 8 v :: rest →
    step s = .next { f v { s with events := rest } with accessed := true, reply := some .written }

/-! ### One slot fed by a host (R203) -/

/-- One command of a host on a slot: the `CTRL` value it writes before it, and the operands. -/
inductive Feed where
  /-- APPEND of `n` bytes from `a`. -/
  | append (ctrl a n : Word)
  /-- APPEND_IMM of the low `n` bytes of `a`. -/
  | appendImm (ctrl a n : Word)
  /-- CHECKSUM. -/
  | checksum (ctrl a n : Word)
  /-- GETREG. -/
  | getreg (ctrl a n : Word)
deriving DecidableEq, Repr

/-- The command of a feed on slot `c`. -/
def feedCommand (c : Nat) : Feed → Instr
  | .append _ _ _ => .append c
  | .appendImm _ _ _ => .appendImm c
  | .checksum _ _ _ => .checksum c
  | .getreg _ _ _ => .getreg c

/-- The `CTRL`, `ARG0` and `ARG1` values of a feed. -/
def feedValues : Feed → Word × Word × Word
  | .append k a n => (k, a, n)
  | .appendImm k a n => (k, a, n)
  | .checksum k a n => (k, a, n)
  | .getreg k a n => (k, a, n)

/-- What happens in a feed: the host writes `CTRL`, `ARG0`, `ARG1` and `CMD`, and the engine runs. -/
def feedEvents (s : State) (c : Nat) (f : Feed) : List Event :=
  [ .hostWrite (regAddr .ctrl s) 8 (feedValues f).1,
    .hostWrite (regAddr .arg0 s) 8 (feedValues f).2.1,
    .hostWrite (regAddr .arg1 s) 8 (feedValues f).2.2,
    .hostWrite (regAddr .cmd s) 8 (encode (feedCommand c f)),
    .engineRun ]

/-- The bytes a feed appends. -/
def feedBytes (s : State) : Feed → List Byte
  | .append _ a n => memBytes s a.toNat n.toNat
  | .appendImm _ a n => lowBytes a n.toNat
  | .checksum _ _ _ => []
  | .getreg _ _ _ => []

/-- The feed passes the checks of its command: APPEND's range is no null pointer, does not pass the top of the address space
(R197), and is answered and readable (R62); APPEND_IMM's count is at most 8 (R199). -/
def FeedValid (s : State) : Feed → Prop
  | .append _ a n =>
    ¬(a = 0#64 ∧ n ≠ 0#64) ∧ a.toNat + n.toNat ≤ 2 ^ 64 ∧
      ∀ j, j < n.toNat → memSilent s.params (a + BitVec.ofNat 64 j) = false ∧
        memFault s.params (a + BitVec.ofNat 64 j) = false
  | .appendImm _ _ n => n.toNat ≤ 8
  | .checksum _ _ _ => True
  | .getreg _ _ _ => True

end Sys2Proof.Machine
end

