-- ==== Sys2Proof/Certificates/Slice0/Obligations.lean ====
section
/-! DEFINITION. The statements for the provers. -/

open Sys2Proof Sys2Proof.Machine Polynomial

namespace Sys2Proof.Machine

/-- The polynomial a 64-bit register value stands for: `R(x) = sum for i in 0..63 of r[i] * x^(63-i)` (R106). -/
noncomputable def readWord (r : Word) : (ZMod 2)[X] :=
  ∑ i ∈ Finset.range 64, if r.getLsbD i then X ^ (63 - i) else 0

/-- The polynomial a byte stands for: `B(x) = sum for j in 0..7 of b[j] * x^(7-j)` (R106). -/
noncomputable def readByte (b : Byte) : (ZMod 2)[X] :=
  ∑ j ∈ Finset.range 8, if b.getLsbD j then X ^ (7 - j) else 0

/-- The generator `P(x) = x^64 + sum over j of n[j] x^j`, with `n` the normal form of the polynomial (R101). -/
noncomputable def genPoly : (ZMod 2)[X] :=
  X ^ 64 + ∑ j ∈ Finset.range 64, if polyNormal.getLsbD j then X ^ j else 0

/-- `M(x)`: a byte sequence read as one bit string, first byte first and each byte least significant bit first, with the first
bit as the highest power (R108). -/
noncomputable def readMessage : List Byte → (ZMod 2)[X]
  | [] => 0
  | b :: d => readByte b * X ^ (8 * d.length) + readMessage d

end Sys2Proof.Machine

/-! ### Encoding -/

/-- R81, R83: no bit of an encoding is dropped, through the word and through the byte lanes of the bus. -/
def Obligations.EncodedCommandsDecodeBack : Prop :=
  ∀ i : Instr, i.wellFormed = true →
    decode (encode i) = .ok i ∧ decodeLanes (lowBytes (encode i) 8) = .ok i ∧
      decodeTableWord 64 (encode i).toNat = some i

/-- R83, R84: a word that decodes is the encoding of the command it decodes to, and of no other. -/
def Obligations.DecodedWordsEncodeBack : Prop :=
  ∀ (w : Word) (i : Instr), decode w = .ok i → i.wellFormed = true ∧ encode i = w

/-- R83: no word matches two rows of the opcode map, and a row's mask and match are those of the table. -/
def Obligations.OpcodeRowsNeverOverlap : Prop :=
  opcodeMap.Pairwise (fun q r => ∀ w : Word, ¬(rowMatches w q = true ∧ rowMatches w r = true))

/-- R84: which words are illegal, and that an accepted illegal word completes with `ILLEGAL` and changes nothing else. -/
def Obligations.IllegalWordsAreRefused : Prop :=
  (∀ w : Word, (∃ e, decode w = .error e) ↔
    (opcField w ∉ [0x00#8, 0x01#8, 0x02#8, 0x03#8, 0x04#8, 0x05#8, 0x06#8, 0x10#8, 0x11#8, 0x12#8] ∨
      rsvField w ≠ 0#48 ∨
      (ctxField w ≠ 0#8 ∧ opcField w ∈ [0x00#8, 0x01#8, 0x10#8, 0x11#8, 0x12#8]))) ∧
  (∀ (s : State) (L : Latch) (e : DecodeError), s.events = [.engineRun] → s.builder = .done → s.inflight = some L →
    decode L.w = .error e → step s = .next (ended .illegal { s with events := [] }))

/-- Words written out from the encodings of R83 and R86 decode to the commands they stand for. -/
def Obligations.SpecWordsDecode : Prop :=
  decode 0x0000000000000202#64 = .ok (.append 2) ∧
  decode 0x000000000000ff04#64 = .ok (.checksum 255) ∧
  decode 0x0000000000000106#64 = .ok (.destroy 1) ∧
  decode 0x0000000000000003#64 = .ok (.appendImm 0) ∧
  decode 0x0000000000000705#64 = .ok (.getreg 7) ∧
  decode 0x0000000000000000#64 = .ok .nop ∧
  decode 0x0000000000000001#64 = .ok .create ∧
  decode 0x0000000000000010#64 = .ok .stepByte ∧
  decode 0x0000000000000011#64 = .ok .stepWord ∧
  decode 0x0000000000000012#64 = .ok .tblRead

/-! ### The step -/

/-- R193: when the engine runs with a command in flight whose word decodes to `i`, the step is `exec i` of the state with the
event taken off the queue; with an empty queue the engine runs as well. Where the engine takes one small step, it is the
command's small step if there is one left to take, and else `exec i`. -/
def Obligations.StepRunsTheDecodedCommand : Prop :=
  ∀ (s : State) (L : Latch) (i : Instr), s.builder = .done → s.inflight = some L → decode L.w = .ok i →
    (∀ rest, s.events = .engineRun :: rest → step s = exec i { s with events := rest }) ∧
    (s.events = [] → step s = exec i s) ∧
    (∀ rest, s.events = .engineUnit :: rest → commandUnit i { s with events := rest } = none →
      step s = exec i { s with events := rest }) ∧
    (∀ rest t, s.events = .engineUnit :: rest → commandUnit i { s with events := rest } = some t → step s = .next t)

/-- The very next step after `withFetchWord` runs the word's command, as the freshly accepted command in flight. -/
def Obligations.FetchedWordRunsNext : Prop :=
  ∀ (s : State) (w : Word) (i : Instr), decode w = .ok i →
    ∃ t : State, step (s.withFetchWord 64 w.toNat) = exec i t ∧
      t.inflight = some { w := w, a0 := s.arg0, a1 := s.arg1, sel := s.ctrl, i := 0, shadow := 0#64 } ∧
      t.builder = .done ∧ t.slots = s.slots ∧ t.mem = s.mem ∧ t.params = s.params ∧ t.events = s.events

/-! ### The commands, rule by rule -/

/-- R195: NOP; while `BUSY = 1` its word is not accepted, as no command's is. -/
def Obligations.NopDoesNothing : Prop :=
  (∀ s : State, exec .nop s = .next (ended .ok s)) ∧ EncodedPlain .nop 0x00#8 ∧
  (∀ (s : State) (rest : List Event), s.busy = true →
    s.events = .hostWrite (regBase s.params + 0x58#64) 8 0#64 :: rest →
    step s = .next { s with events := rest, overrun := true, accessed := true, reply := some .written })

/-- R196: CREATE takes the lowest free slot, gives it `INIT` and answers its number; with no free slot it fails with
`NO_SLOT` and changes nothing else. -/
def Obligations.CreateTakesTheLowestFreeSlot : Prop :=
  (∀ (s : State) (c : Nat), c < numCtx s.params → (slotAt c s).live = false →
    (∀ j, j < c → (slotAt j s).live = true) →
    exec .create s = .next
      { ended .ok s with
        result := BitVec.ofNat 64 c
        slots := s.slots.setIfInBounds c { live := true, reg := 0xFFFFFFFFFFFFFFFF#64 } }) ∧
  (∀ s : State, (∀ c, c < numCtx s.params → (slotAt c s).live = true) → exec .create s = .next (ended .noSlot s)) ∧
  EncodedPlain .create 0x01#8

/-- R197: an APPEND that passes its checks leaves in its slot the scalar stepper's value over the bytes of its range, in
address order, having read each address of the range once; in which order the reads are made is left open (R63), and so is the
order of the MODEL's record of them, `portReads` (logs 7 and 16). A null pointer and a range past the top of the address space are refused before any read; with a faulting read
it ends with `BUS` and its slot as it was. -/
def Obligations.AppendScansItsRange : Prop :=
  (∀ (s : State) (L : Latch) (c : Nat), s.inflight = some L → L.i = 0 → s.tables = builtTables → s.window = [] →
    SlotLive c s → ¬(L.a0 = 0#64 ∧ L.a1 ≠ 0#64) → L.a0.toNat + L.a1.toNat ≤ 2 ^ 64 →
    RangeAnswered s L → RangeReadable s L →
    ∃ r : List Word, r.Perm ((List.range L.a1.toNat).map (fun j => L.a0 + BitVec.ofNat 64 j)) ∧
      exec (.append c) s = .next
        { ended .ok s with
          slots := s.slots.setIfInBounds c
            { live := true, reg := scan (slotAt c s).reg (memBytes s L.a0.toNat L.a1.toNat) }
          portReads := s.portReads ++ r }) ∧
  (∀ (s : State) (L : Latch) (c : Nat), s.inflight = some L → SlotLive c s → L.a0 = 0#64 → L.a1 ≠ 0#64 →
    exec (.append c) s = .next (ended .nullPtr s)) ∧
  (∀ (s : State) (L : Latch) (c : Nat), s.inflight = some L → SlotLive c s →
    L.a0.toNat + L.a1.toNat > 2 ^ 64 → exec (.append c) s = .next (ended .range s)) ∧
  (∀ (s : State) (L : Latch) (c : Nat), s.inflight = some L → L.i = 0 → SlotLive c s →
    ¬(L.a0 = 0#64 ∧ L.a1 ≠ 0#64) → L.a0.toNat + L.a1.toNat ≤ 2 ^ 64 → RangeAnswered s L → ¬RangeReadable s L →
    ∃ r : List Word, exec (.append c) s = .next { ended .bus s with portReads := r }) ∧
  RefusesDeadSlots .append ∧ EncodedWithSlot .append 0x02#8

/-- R198: with a faulting read in its range an APPEND completes with `BUS`; its slot and every other piece of engine state
keep their values, and no address is read more than once. -/
def Obligations.AppendBusFaultCommitsNothing : Prop :=
  ∀ (s : State) (L : Latch) (c : Nat), s.inflight = some L → L.i = 0 → s.portReads = [] → SlotLive c s →
    ¬(L.a0 = 0#64 ∧ L.a1 ≠ 0#64) → L.a0.toNat + L.a1.toNat ≤ 2 ^ 64 → RangeAnswered s L → ¬RangeReadable s L →
    ∃ r : List Word, exec (.append c) s = .next { ended .bus s with portReads := r } ∧ r.Nodup ∧
      ∀ a ∈ r, ∃ j, j < L.a1.toNat ∧ a = L.a0 + BitVec.ofNat 64 j

/-- R199: APPEND_IMM. -/
def Obligations.AppendImmScansItsBytes : Prop :=
  (∀ (s : State) (L : Latch) (c : Nat), s.inflight = some L → s.tables = builtTables → SlotLive c s →
    L.a1.toNat ≤ 8 →
    exec (.appendImm c) s = .next
      { ended .ok s with
        slots := s.slots.setIfInBounds c
          { live := true
            reg := scan (slotAt c s).reg ((List.range L.a1.toNat).map (fun j => L.a0.extractLsb' (8 * j) 8)) } }) ∧
  (∀ (s : State) (L : Latch) (c : Nat), s.inflight = some L → SlotLive c s → L.a1.toNat > 8 →
    exec (.appendImm c) s = .next (ended .badArg s)) ∧
  RefusesDeadSlots .appendImm ∧ EncodedWithSlot .appendImm 0x03#8

/-- R200: CHECKSUM answers `REG[ctx] ^ XOROUT` and changes no slot. -/
def Obligations.ChecksumReadsTheFinalizedValue : Prop :=
  (∀ (s : State) (c : Nat), SlotLive c s →
    exec (.checksum c) s = .next { ended .ok s with result := (slotAt c s).reg ^^^ 0xFFFFFFFFFFFFFFFF#64 }) ∧
  RefusesDeadSlots .checksum ∧ EncodedWithSlot .checksum 0x04#8

/-- R201: GETREG answers `REG[ctx]` and changes no slot; of a slot just created it answers `INIT`. -/
def Obligations.GetregReadsTheRawRegister : Prop :=
  (∀ (s : State) (c : Nat), SlotLive c s →
    exec (.getreg c) s = .next { ended .ok s with result := (slotAt c s).reg }) ∧
  (∀ (s : State) (c : Nat), c < numCtx s.params → (slotAt c s).live = false →
    (∀ j, j < c → (slotAt j s).live = true) →
    ∃ t u, exec .create s = .next t ∧ exec (.getreg c) (accept (encode (.getreg c)) t) = .next u ∧
      u.errcode = .ok ∧ u.result = 0xFFFFFFFFFFFFFFFF#64) ∧
  RefusesDeadSlots .getreg ∧ EncodedWithSlot .getreg 0x05#8

/-- R202: DESTROY frees and clears its slot; a second DESTROY of it fails with `DEAD_CTX`. -/
def Obligations.DestroyFreesTheSlot : Prop :=
  (∀ (s : State) (c : Nat), SlotLive c s →
    ∃ t : State, exec (.destroy c) s = .next t ∧
      t = { ended .ok s with slots := s.slots.setIfInBounds c { live := false, reg := 0#64 } } ∧
      exec (.destroy c) t = .next (ended .deadCtx t)) ∧
  RefusesDeadSlots .destroy ∧ EncodedWithSlot .destroy 0x06#8

/-- R145: STEP_BYTE answers `advance(a0, a1[7:0])`, eight reductions after the byte is XORed into the low 8 bits. -/
def Obligations.StepByteAdvancesOneByte : Prop :=
  (∀ (s : State) (L : Latch), s.inflight = some L → L.a1.toNat ≤ 0xFF →
    exec .stepByte s = .next { ended .ok s with result := advance L.a0 (L.a1.extractLsb' 0 8) }) ∧
  (∀ (s : State) (L : Latch), s.inflight = some L → L.a1.toNat > 0xFF →
    exec .stepByte s = .next (ended .badArg s)) ∧
  EncodedPlain .stepByte 0x10#8 ∧
  advance 0#64 0#8 = 0#64 ∧
  advance 0xFFFFFFFFFFFFFFFF#64 0xFF#8 = 0x00ffffffffffffff#64 ∧
  advance 0x8000000000000000#64 0#8 = 0x0080000000000000#64 ∧
  advance 0#64 0x80#8 = 0x9a6c9329ac4bc9b5#64 ∧
  advance 1#64 0#8 = 0x7f6ef0c830358979#64 ∧ advance 0#64 1#8 = 0x7f6ef0c830358979#64 ∧
  advance 0xFFFFFFFFFFFFFFFF#64 0x31#8 = 0xdc6a5e3cb9e4412d#64

/-- R169: STEP_WORD answers the lane step of its operands, which with the tables built is the scalar stepper over the bytes of
`a1`, least significant first. -/
def Obligations.StepWordStepsOneLane : Prop :=
  (∀ (s : State) (L : Latch), s.inflight = some L →
    exec .stepWord s = .next { ended .ok s with result := wordStep s.tables L.a0 L.a1 }) ∧
  (∀ (s : State) (L : Latch), s.inflight = some L → s.tables = builtTables →
    exec .stepWord s = .next { ended .ok s with result := scan L.a0 (lowBytes L.a1 8) }) ∧
  EncodedPlain .stepWord 0x11#8 ∧
  (∀ r : Word, wordStep builtTables r r = 0#64) ∧
  wordStep builtTables 0#64 0x8000000000000000#64 = 0x9a6c9329ac4bc9b5#64 ∧
  wordStep builtTables 0#64 1#64 = 0x21e9761e252621ac#64 ∧
  wordStep builtTables 0xFFFFFFFFFFFFFFFF#64 0#64 = 0xf310303b2b6f6e42#64 ∧
  wordStep builtTables 0xFFFFFFFFFFFFFFFF#64 0x3837363534333231#64 = 0x132f6f673d376b6b#64

/-- R125: TBL_READ answers the entry `T[a0][a1]`, which with the tables built is 64 reductions of the byte shifted up by `8*k`;
a table number above 7 or an index above 255 is `BAD_ARG`, and no wrap or truncation. Its word is not accepted while
`TBL_READY = 0`. -/
def Obligations.TblReadReadsOneEntry : Prop :=
  (∀ (s : State) (L : Latch) (k : Fin 8) (b : Byte), s.inflight = some L → L.a0.toNat = k.val → L.a1.toNat = b.toNat →
    exec .tblRead s = .next { ended .ok s with result := lookup s.tables k b }) ∧
  (∀ (s : State) (L : Latch) (k : Fin 8) (b : Byte), s.inflight = some L → s.tables = builtTables →
    L.a0.toNat = k.val → L.a1.toNat = b.toNat →
    exec .tblRead s = .next { ended .ok s with result := step1^[64] (b.setWidth 64 <<< (8 * k.val)) }) ∧
  (∀ (s : State) (L : Latch), s.inflight = some L → (L.a0.toNat > 7 ∨ L.a1.toNat > 255) →
    exec .tblRead s = .next (ended .badArg s)) ∧
  EncodedPlain .tblRead 0x12#8 ∧
  (∀ (s : State) (rest : List Event), EngineInv s → s.tblReady = false →
    s.events = .hostWrite (regBase s.params + 0x58#64) 8 0x12#64 :: rest →
    step s = .next { s with events := rest, overrun := true, accessed := true, reply := some .written })

/-! ### Errors, priority and frames -/

/-- R194: every command with a CTX field passes the context check first. -/
def Obligations.EveryContextCommandChecksItsSlot : Prop :=
  ∀ (i : Instr) (c : Nat) (s : State), i.slot? = some c →
    (numCtx s.params ≤ c → exec i s = .next (ended .badCtx s)) ∧
    (c < numCtx s.params → (slotAt c s).live = false → exec i s = .next (ended .deadCtx s))

/-- R241: a command that completes with an error changes `ERRCODE` and ends, and nothing else in the engine. -/
def Obligations.ErrorsChangeOnlyTheStatus : Prop :=
  ∀ (i : Instr) (s t : State) (L : Latch), s.inflight = some L → exec i s = .next t → t.inflight = none →
    t.errcode ≠ .ok → t = { ended t.errcode s with portReads := t.portReads }

/-- R242: the one code a command reports, the first in the fixed order. -/
def Obligations.FirstErrorInOrderWins : Prop :=
  (∀ (s : State) (L : Latch) (e : DecodeError), s.events = [.engineRun] → s.builder = .done → s.inflight = some L →
    decode L.w = .error e → ∃ t, step s = .next t ∧ t.errcode = .illegal) ∧
  (∀ (s : State) (L : Latch) (c : Nat), s.inflight = some L → L.i = 0 → RangeAnswered s L →
    ∃ t, exec (.append c) s = .next t ∧
      t.errcode =
        (if numCtx s.params ≤ c then .badCtx
        else if (slotAt c s).live = false then .deadCtx
        else if L.a0 = 0#64 ∧ L.a1 ≠ 0#64 then .nullPtr
        else if L.a0.toNat + L.a1.toNat > 2 ^ 64 then .range
        else if ((List.range L.a1.toNat).any fun j => memFault s.params (rangeAddr L j)) = true then .bus
        else .ok) ∧
      (t.errcode ≠ .ok → t.errcode ≠ .bus → t.portReads = s.portReads)) ∧
  (∀ (s : State) (L : Latch) (c : Nat), s.inflight = some L →
    ∃ t, exec (.appendImm c) s = .next t ∧ t.portReads = s.portReads ∧
      t.errcode =
        (if numCtx s.params ≤ c then .badCtx
        else if (slotAt c s).live = false then .deadCtx
        else if L.a1.toNat > 8 then .badArg
        else .ok)) ∧
  (∀ (i : Instr) (s : State) (c : Nat), i ∈ [.checksum c, .getreg c, .destroy c] →
    ∃ t, exec i s = .next t ∧ t.portReads = s.portReads ∧
      t.errcode =
        (if numCtx s.params ≤ c then .badCtx
        else if (slotAt c s).live = false then .deadCtx
        else .ok)) ∧
  (∀ s : State, ∃ t, exec .create s = .next t ∧
    t.errcode = (if ∀ c, c < numCtx s.params → (slotAt c s).live = true then .noSlot else .ok)) ∧
  (∀ (s : State) (L : Latch), s.inflight = some L →
    (∃ t, exec .stepByte s = .next t ∧ t.errcode = if L.a1.toNat > 0xFF then .badArg else .ok) ∧
    (∃ t, exec .tblRead s = .next t ∧
      t.errcode = if L.a0.toNat > 7 ∨ L.a1.toNat > 255 then .badArg else .ok) ∧
    (∃ t, exec .stepWord s = .next t ∧ t.errcode = .ok) ∧ (∃ t, exec .nop s = .next t ∧ t.errcode = .ok))

/-- What no command changes: the parameters, the tables, the builder, `TBL_READY`, `OVERRUN`, `CTRL`, `ARG0`, `ARG1`, every
byte of host memory, the host's bus and what happens next; and of the slots, only the one it names, or for CREATE the lowest
free one. A small step that leaves the command in flight changes nothing but the progress in the latch and the record of reads
(R193, R198, R283); one that ends it is the `BUS` error and changes nothing beside the status and that record. -/
def Obligations.CommandsChangeOnlyTheirOwnState : Prop :=
  (∀ (i : Instr) (s t : State), exec i s = .next t →
    t.params = s.params ∧ t.tables = s.tables ∧ t.builder = s.builder ∧ t.tblReady = s.tblReady ∧
    t.overrun = s.overrun ∧ t.ctrl = s.ctrl ∧ t.arg0 = s.arg0 ∧ t.arg1 = s.arg1 ∧ t.accessed = s.accessed ∧
    t.draws = s.draws ∧ t.reply = s.reply ∧ t.events = s.events ∧
    (∀ a, Memory.read t.mem a = Memory.read s.mem a) ∧
    (∀ x, i.slot? ≠ some x → (i = .create → leastFree s ≠ some x) → slotAt x t = slotAt x s) ∧
    (∀ x c, i = .checksum c ∨ i = .getreg c → slotAt x t = slotAt x s)) ∧
  (∀ (i : Instr) (s t : State) (L : Latch), s.inflight = some L → commandUnit i s = some t →
    (∀ M, t.inflight = some M →
      t = { s with inflight := t.inflight, portReads := t.portReads } ∧
      M.w = L.w ∧ M.a0 = L.a0 ∧ M.a1 = L.a1 ∧ M.sel = L.sel) ∧
    (t.inflight = none → t = { ended .bus s with portReads := t.portReads }))

/-- R32: `RESULT` changes only at the successful completion of CREATE, CHECKSUM, GETREG, STEP_BYTE, STEP_WORD or TBL_READ. -/
def Obligations.ResultIsWrittenOnlyByValueCommands : Prop :=
  ∀ (i : Instr) (s t : State), exec i s = .next t →
    (t.errcode ≠ .ok ∨ i = .nop ∨ (∃ c, i = .append c) ∨ (∃ c, i = .appendImm c) ∨ (∃ c, i = .destroy c)) →
    t.result = s.result

/-- R206: what a command on slot `c` answers and leaves in slot `c` does not depend on any other slot, and it writes no other
slot; a command without a slot, CREATE apart, neither reads nor writes any slot. -/
def Obligations.SlotsAreIsolated : Prop :=
  (∀ (i : Instr) (c : Nat) (s : State) (v : Vector Slot 256), i.slot? = some c → v[c]? = s.slots[c]? →
    ∃ t u, exec i s = .next t ∧ exec i { s with slots := v } = .next u ∧
      u.errcode = t.errcode ∧ u.result = t.result ∧ u.slots[c]? = t.slots[c]? ∧ u.inflight = t.inflight ∧
      (∀ x, x ≠ c → slotAt x t = slotAt x s)) ∧
  (∀ (i : Instr) (s : State) (v : Vector Slot 256), i.slot? = none → i ≠ .create →
    ∃ t, exec i s = .next t ∧ t.slots = s.slots ∧ exec i { s with slots := v } = .next { t with slots := v })

/-! ### The register block -/

/-- R22 to R27, R29: what a host reads at each offset of the register block, and where the fields of `CTRL` stand. -/
def Obligations.RegisterBlockReads : Prop :=
  ReadsAs 0x00 (fun _ => 0x4D564E3436435243#64) ∧
  ReadsAs 0x08 (fun _ => 0x0000000000000001#64) ∧
  ReadsAs 0x10 (fun s => capWord s.params) ∧
  ReadsAs 0x18 (fun _ => 0x0000000000000040#64) ∧
  ReadsAs 0x20 (fun _ => 0x9a6c9329ac4bc9b5#64) ∧
  ReadsAs 0x28 (fun _ => 0xFFFFFFFFFFFFFFFF#64) ∧
  ReadsAs 0x30 (fun _ => 0xFFFFFFFFFFFFFFFF#64) ∧
  ReadsAs 0x38 (fun _ => 0x0000000000000003#64) ∧
  ReadsAs 0x40 (fun _ => 0xae8b14860a799888#64) ∧
  ReadsAs 0x48 (fun s => ctrlWord s.ctrl) ∧
  ReadsAs 0x50 (fun s => statusWord s) ∧
  ReadsAs 0x58 (fun _ => 0#64) ∧
  ReadsAs 0x60 (fun s => s.arg0) ∧
  ReadsAs 0x68 (fun s => s.arg1) ∧
  ReadsAs 0x70 (fun s => s.result) ∧
  (∀ k, 15 ≤ k → k < 32 → ReadsAs (8 * k) (fun _ => 0#64)) ∧
  (∀ c : Sel, (ctrlWord c).getLsbD 0 = c.bulkSel ∧ (ctrlWord c).getLsbD 1 = c.scalarOnly ∧
    (ctrlWord c).extractLsb' 2 62 = 0#62)

/-- R22 to R31: what a host write does at each offset of the register block. -/
def Obligations.RegisterBlockWrites : Prop :=
  (∀ off ∈ [0x00, 0x08, 0x10, 0x18, 0x20, 0x28, 0x30, 0x38, 0x40, 0x70], WritesAs off (fun _ s => s)) ∧
  WritesAs 0x48 (fun v s =>
    { s with ctrl := { bulkSel := v.getLsbD 0 && s.params.hasClmul, scalarOnly := v.getLsbD 1 } }) ∧
  WritesAs 0x50 (fun v s => { s with overrun := s.overrun && !v.getLsbD 2 }) ∧
  WritesAs 0x60 (fun v s => { s with arg0 := v }) ∧
  WritesAs 0x68 (fun v s => { s with arg1 := v }) ∧
  (∀ k, 15 ≤ k → k < 32 → WritesAs (8 * k) (fun _ s => s))

/-- R191: a write of `CMD` while busy is dropped and sets `OVERRUN`; while idle it is accepted, with the operands and the
path selection latched. -/
def Obligations.CmdWritesAreAcceptedOrDropped : Prop :=
  ∀ (s : State) (v : Word) (rest : List Event),
    s.events = .hostWrite (regBase s.params + 0x58#64) 8 v :: rest →
    (s.busy = true →
      step s = .next { s with events := rest, overrun := true, accessed := true, reply := some .written }) ∧
    (s.busy = false →
      ∃ t, step s = .next t ∧ t.busy = true ∧
        t.inflight = some { w := v, a0 := s.arg0, a1 := s.arg1, sel := s.ctrl, i := 0, shadow := 0#64 } ∧
        t.overrun = s.overrun ∧ t.errcode = s.errcode ∧ t.result = s.result ∧ t.slots = s.slots ∧
        t.arg0 = s.arg0 ∧ t.arg1 = s.arg1 ∧ t.ctrl = s.ctrl ∧ t.tables = s.tables ∧ t.mem = s.mem)

/-- R28: the fields of `STATUS`; R240: the nine error codes as numbers. -/
def Obligations.StatusFieldsAreWhereTheSpecPutsThem : Prop :=
  ∀ s : State,
    (statusWord s).getLsbD 0 = s.busy ∧ (statusWord s).getLsbD 1 = s.tblReady ∧ (statusWord s).getLsbD 2 = s.overrun ∧
    (statusWord s).extractLsb' 3 5 = 0#5 ∧ (statusWord s).extractLsb' 8 8 = errCodeBits s.errcode ∧
    (statusWord s).extractLsb' 16 48 = 0#48 ∧
    errCodeBits .ok = 0x00#8 ∧ errCodeBits .illegal = 0x01#8 ∧ errCodeBits .badCtx = 0x02#8 ∧
    errCodeBits .deadCtx = 0x03#8 ∧ errCodeBits .noSlot = 0x04#8 ∧ errCodeBits .badArg = 0x05#8 ∧
    errCodeBits .nullPtr = 0x06#8 ∧ errCodeBits .range = 0x07#8 ∧ errCodeBits .bus = 0x08#8

/-- R25: the fields of `CAP`. -/
def Obligations.CapFieldsAreWhereTheSpecPutsThem : Prop :=
  ∀ p : Params,
    ((capWord p).extractLsb' 0 8).toNat = numCtx p - 1 ∧ (capWord p).extractLsb' 8 8 = 8#8 ∧
    ((capWord p).extractLsb' 16 8).toNat = lanes p ∧ (capWord p).getLsbD 24 = p.hasClmul ∧
    (capWord p).extractLsb' 25 39 = 0#39

/-- R21: an access that touches the block and is not an aligned 64-bit access is answered with a bus error and has no effect
on engine state. -/
def Obligations.MisalignedHostAccessesAreBusErrors : Prop :=
  ∀ (s : State) (rest : List Event) (off n : Nat) (v : Word), off < 256 → 0 < n → ¬(n = 8 ∧ off % 8 = 0) →
    off + n ≤ 256 →
    (s.events = .hostRead (regBase s.params + BitVec.ofNat 64 off) n :: rest →
      step s = .next { s with events := rest, reply := some .busError }) ∧
    (s.events = .hostWrite (regBase s.params + BitVec.ofNat 64 off) n v :: rest →
      step s = .next { s with events := rest, reply := some .busError })

/-- R287: writes of `ARG0`, `ARG1` and `CTRL` while a command is in flight change nothing of its completion but themselves. -/
def Obligations.OperandWritesDoNotTouchTheCommandInFlight : Prop :=
  ∀ (i : Instr) (s : State) (L : Latch) (x y : Word) (z : Sel), s.inflight = some L →
    ∃ t, exec i s = .next t ∧
      exec i { s with arg0 := x, arg1 := y, ctrl := z } = .next { t with arg0 := x, arg1 := y, ctrl := z }

/-! ### Reset and the table builder -/

/-- R270: what reset leaves, for every value the spec gives. -/
def Obligations.ResetLeavesTheSpecValues : Prop :=
  ∀ (s : State) (rest : List Event), s.events = .reset :: rest →
    ∃ t, step s = .next t ∧ (∀ c, (slotAt c t).live = false) ∧ t.tblReady = false ∧ t.busy = true ∧
      t.overrun = false ∧ t.errcode = .ok ∧ errCodeBits t.errcode = 0#8 ∧ ctrlWord t.ctrl = 0#64 ∧ t.arg0 = 0#64 ∧
      t.arg1 = 0#64 ∧ t.result = 0#64 ∧ t.inflight = none ∧ t.builder = .running ∧ t.params = s.params ∧
      t.mem = s.mem ∧ t.events = rest ∧
      ∀ r ∈ [.id, .version, .cap, .pWidth, .pPoly, .pInit, .pXorout, .pFlags, .pCheck], regValue r t = regValue r s

/-- R122: the builder's turn: it waits for the first host access; then, in one turn (the MODEL's choice, log 14), it leaves
every entry of R121 in the store, sets `TBL_READY` and ends `BUSY`. From then on no step but a reset writes the store or takes
`TBL_READY` back (R40). The turn is the step with an empty queue of events (the MODEL's choice, log 11), or an engine event. -/
def Obligations.BuilderFillsTheTablesOnce : Prop :=
  (∀ (s : State) (rest : List Event), s.builder = .running → s.accessed = false →
    (s.events = [] → step s = .next s) ∧
    (s.events = .engineRun :: rest ∨ s.events = .engineUnit :: rest → step s = .next { s with events := rest })) ∧
  (∀ (s : State) (rest : List Event),
    s.events = [] ∨ s.events = .engineRun :: rest ∨ s.events = .engineUnit :: rest →
    s.builder = .running → s.accessed = true →
    ∃ t, step s = .next t ∧ t.builder = .done ∧ t.tblReady = true ∧ t.busy = false ∧
      ∀ (k : Fin 8) (b : Byte), lookup t.tables k b = step1^[64] (b.setWidth 64 <<< (8 * k.val))) ∧
  (∀ s t : State, s.builder = .done → (∀ rest, s.events ≠ .reset :: rest) → step s = .next t →
    t.builder = .done ∧ t.tables = s.tables ∧ t.tblReady = s.tblReady)

/-- R122, R281: after reset a `CMD` write as the first access is dropped, whatever the word, and after the build `STATUS`
shows `TBL_READY` and `OVERRUN` alone. -/
def Obligations.FirstCommandAfterResetIsDropped : Prop :=
  ∀ v : Word, ∃ t : State,
    Host.Core.run Sys2Proof.core 3
      (withEvents [.engineRun, .hostWrite (regBase State.reset.params + 0x58#64) 8 v, .engineRun] State.reset)
        = .next t ∧
      statusWord t = 0x0000000000000006#64 ∧ t.inflight = none ∧ ∀ c, (slotAt c t).live = false

/-! ### The steppers -/

/-- R106: the scalar stepper computes `((R(x) + B(x) * x^56) * x^8) mod P(x)`. -/
def Obligations.ScalarStepperIsPolynomialReduction : Prop :=
  ∀ (r : Word) (b : Byte), readWord (advance r b) = ((readWord r + readByte b * X ^ 56) * X ^ 8) %ₘ genPoly

/-- R108: the closed form of the register and of the checksum of a Digest that consumed `d`. -/
def Obligations.ChecksumHasTheClosedForm : Prop :=
  ∀ (d : List Byte) (s : State) (c : Nat), SlotLive c s → (slotAt c s).reg = scan 0xFFFFFFFFFFFFFFFF#64 d →
    readWord (slotAt c s).reg =
      (readWord 0xFFFFFFFFFFFFFFFF#64 * X ^ (8 * d.length) + readMessage d * X ^ 64) %ₘ genPoly ∧
    ∃ t, exec (.checksum c) s = .next t ∧ t.result = (slotAt c s).reg ^^^ 0xFFFFFFFFFFFFFFFF#64

/-- R109: the stepper is linear over GF(2). -/
def Obligations.ScanIsLinear : Prop :=
  (∀ (r q : Word) (b c : Byte), advance (r ^^^ q) (b ^^^ c) = advance r b ^^^ advance q c) ∧
  (∀ (r q : Word) (d e : List Byte), d.length = e.length →
    scan (r ^^^ q) (List.zipWith (· ^^^ ·) d e) = scan r d ^^^ scan q e) ∧
  (∀ (r : Word) (d : List Byte), scan r d = scan r (zeros d.length) ^^^ scan 0#64 d)

/-- R110: appending zero bytes multiplies the register by a power of `x`. -/
def Obligations.ZeroBytesMultiplyByAPower : Prop :=
  ∀ (r : Word) (n : Nat), readWord (scan r (zeros n)) = (readWord r * X ^ (8 * n)) %ₘ genPoly

/-- R143: `scan` composes over concatenation. -/
def Obligations.ScanComposes : Prop :=
  ∀ (r : Word) (d e : List Byte), scan r (d ++ e) = scan (scan r d) e

/-- R144: the table-driven form of the scalar stepper. -/
def Obligations.ScalarStepByTable : Prop :=
  ∀ (r : Word) (b : Byte), advance r b = (r >>> 8) ^^^ lookup builtTables 7 ((r ^^^ zext64 b).extractLsb' 0 8)

/-- R124: the properties of the tables. -/
def Obligations.TableEntriesObeyTheirLaws : Prop :=
  (∀ b : Byte, lookup builtTables 7 b = advance 0#64 b) ∧
  (∀ (k : Fin 8) (b : Byte), lookup builtTables k b = scan (advance 0#64 b) (zeros (7 - k.val))) ∧
  (∀ (j k : Fin 8) (b : Byte), k.val = j.val + 1 →
    lookup builtTables j b =
      (lookup builtTables k b >>> 8) ^^^ lookup builtTables 7 ((lookup builtTables k b).extractLsb' 0 8)) ∧
  (∀ (k : Fin 8) (b c : Byte), lookup builtTables k 0#8 = 0#64 ∧
    lookup builtTables k (b ^^^ c) = lookup builtTables k b ^^^ lookup builtTables k c) ∧
  lookup builtTables 7 0x01#8 = 0x7f6ef0c830358979#64 ∧ lookup builtTables 7 0x80#8 = 0x9a6c9329ac4bc9b5#64 ∧
  lookup builtTables 0 0x01#8 = 0x21e9761e252621ac#64

/-- R160, R164, R168: a lane step is eight scalar steps, and a block by the table path or the fold path is the scalar stepper
over its bytes, for every number of lanes. That `foldBlock` is `advanceBlock` is R168's instruction to a model (log 20). -/
def Obligations.BulkStepperEqualsScalarStepper : Prop :=
  (∀ r w : Word, wordStep builtTables r w = scan r (lowBytes w 8)) ∧
  (∀ (n : Nat) (r : Word) (d : List Byte), d.length = 8 * n →
    advanceBlock builtTables n r d = scan r d ∧ foldBlock builtTables n r d = scan r d)

/-- R170: the routing of an append cannot change its value; so no command's result depends on `CTRL`, `LANES` or
`HAS_CLMUL`. -/
def Obligations.AppendPathsAgreeWithScan : Prop :=
  (∀ (n : Nat) (sel : Sel) (r : Word) (d : List Byte), 1 ≤ n → appendBytes builtTables n sel r d = scan r d) ∧
  (∀ (i : Instr) (s : State) (L : Latch) (x : Sel) (m : Fin 255) (h : Bool), s.inflight = some L →
    s.tables = builtTables →
    ∃ t u, exec i s = .next t ∧
      exec i { s with inflight := some { L with sel := x }, params := { s.params with lanesM1 := m, hasClmul := h } }
        = .next u ∧
      u.errcode = t.errcode ∧ u.result = t.result ∧ u.slots = t.slots ∧ u.portReads = t.portReads)

/-- R171: the fold identity. -/
def Obligations.FoldIdentity : Prop :=
  (∀ (r : Word) (d e : List Byte), scan r (d ++ e) = scan (scan r d) (zeros e.length) ^^^ scan 0#64 e) ∧
  (∀ (s : Word) (n : Nat), readWord (scan s (zeros n)) = (readWord s * X ^ (8 * n)) %ₘ genPoly)

/-- R107: bit `k` of the carry-less product is the XOR of `a[i] & b[j]` over `i + j = k`. -/
def Obligations.CarrylessProductBits : Prop :=
  ∀ (a b : Word) (k : Nat), k ≤ 126 →
    (clmul a b).getLsbD k =
      (List.range (k + 1)).foldl (fun acc i => acc ^^ (a.getLsbD i && b.getLsbD (k - i))) false ∧
    (clmul a b).getLsbD 127 = false

/-- R105: the check value. -/
def Obligations.CheckValueOfTheNineDigits : Prop :=
  scan 0xFFFFFFFFFFFFFFFF#64 [0x31#8, 0x32#8, 0x33#8, 0x34#8, 0x35#8, 0x36#8, 0x37#8, 0x38#8, 0x39#8]
    ^^^ 0xFFFFFFFFFFFFFFFF#64 = 0xae8b14860a799888#64

/-! ### The whole machine -/

/-- The invariant holds at reset. -/
def Obligations.InvariantHoldsAtReset : Prop := EngineInv State.reset

/-- Every step keeps the invariant, from every state that has it. -/
def Obligations.StepKeepsTheInvariant : Prop :=
  ∀ s t : State, EngineInv s → step s = .next t → EngineInv t

/-- R244: no step traps: every step answers a next state. -/
def Obligations.EveryStepAnswersANextState : Prop :=
  ∀ s : State, ∃ t, step s = .next t

/-- R207: the atomic view. Running an APPEND, or any command, in the engine's small steps ends where running it in one step
ends. -/
def Obligations.SmallStepsEndWhereTheAtomicRunEnds : Prop :=
  ∀ (s : State) (L : Latch), EngineInv s → s.inflight = some L → ReadsAnswered s L →
    ∃ n, 1 ≤ n ∧ n ≤ appendLength L - L.i + 1 ∧
      Host.Core.run Sys2Proof.core n (withEvents (List.replicate n .engineUnit) s) =
        Host.Core.run Sys2Proof.core 1 (withEvents [.engineRun] s)

/-- R291: every accepted command completes after a number of engine steps bounded by a function of `a1`, when every read is
answered. -/
def Obligations.EveryAcceptedCommandCompletes : Prop :=
  ∀ (s : State) (L : Latch), EngineInv s → s.inflight = some L → ReadsAnswered s L →
    ∃ n t, n ≤ L.a1.toNat + 1 ∧
      Host.Core.run Sys2Proof.core n (withEvents (List.replicate n .engineUnit) s) = .next t ∧
      t.inflight = none ∧ t.busy = false

/-- The MODEL's choice (log 8) where the platform breaks its obligation of R291: an APPEND whose range has a read that is never
answered, with no fault before it, stays in flight as it is. -/
def Obligations.AnUnansweredReadKeepsTheAppendInFlight : Prop :=
  ∀ (s : State) (L : Latch) (c k : Nat), s.inflight = some L → L.i = 0 → SlotLive c s →
    ¬(L.a0 = 0#64 ∧ L.a1 ≠ 0#64) → L.a0.toNat + L.a1.toNat ≤ 2 ^ 64 → k < L.a1.toNat →
    memSilent s.params (rangeAddr L k) = true →
    (∀ j, j < k → memSilent s.params (rangeAddr L j) = false ∧ memFault s.params (rangeAddr L j) = false) →
    exec (.append c) s = .next s

/-- R61, R63: a command reads nothing outside the range of an APPEND, each address at most once, all of them when no read
faults; a command other than APPEND, and an APPEND refused by its checks, reads nothing. -/
def Obligations.ReadsStayInsideTheRange : Prop :=
  (∀ (s t : State) (L : Latch) (c : Nat), s.inflight = some L → L.i = 0 → s.portReads = [] →
    exec (.append c) s = .next t →
    ∃ k, k ≤ L.a1.toNat ∧ t.portReads = (List.range k).map (fun j => L.a0 + BitVec.ofNat 64 j) ∧
      t.portReads.Nodup ∧ (t.inflight = none → t.errcode = .ok → k = L.a1.toNat) ∧
      (t.errcode ≠ .ok → t.errcode ≠ .bus → t.inflight = none → k = 0)) ∧
  (∀ (i : Instr) (s t : State), (∀ c, i ≠ .append c) → exec i s = .next t → t.portReads = s.portReads)

/-- R70 item 3: each byte an APPEND reads is a value the byte at that address held at some instant since acceptance; and with
no racing store it is the byte in memory. -/
def Obligations.RacingReadsReturnHeldValues : Prop :=
  (∀ (s : State) (L : Latch) (i n : Nat) (d : List Byte), readRange L i n s = .bytes d →
    d.length = n ∧ ∀ j (h : j < d.length), d[j] ∈ heldValues (rangeAddr L (i + j)).toNat s) ∧
  (∀ (s : State) (L : Latch) (a : Word) (b : Byte) (x : Nat), Memory.wf s.mem = true → s.inflight = some L →
    heldValues x (memStore a b s) = if x = a.toNat then b :: heldValues x s else heldValues x s) ∧
  (∀ (s : State) (w : Word) (x : Nat), heldValues x (accept w s) = [Memory.read s.mem x])

/-- R70 item 1, R253: a store that becomes visible is seen by every later read, changes no other byte, and changes nothing of
the engine: only memory, and the MODEL's window of values a racing read may return (log 6). -/
def Obligations.VisibleStoresAreSeen : Prop :=
  ∀ (s : State) (a : Word) (b : Byte) (rest : List Event), Memory.wf s.mem = true → s.events = .memStore a b :: rest →
    ∃ t, step s = .next t ∧ t = { s with events := rest, mem := t.mem, window := t.window } ∧ Memory.wf t.mem = true ∧
      ∀ x, Memory.read t.mem x = if x = a.toNat then b else Memory.read s.mem x

/-- R203: chunking invariance, through the register block: any mix of APPEND, APPEND_IMM, CHECKSUM and GETREG on a live slot,
with any `CTRL` value before each, leaves `scan` of the register before and all the bytes in order. -/
def Obligations.ChunkingDoesNotMatter : Prop :=
  ∀ (s : State) (c : Nat) (fs : List Feed), Idle s → SlotLive c s → (∀ f ∈ fs, FeedValid s f) →
    ∃ t, Host.Core.run Sys2Proof.core (5 * fs.length) (withEvents (fs.flatMap (feedEvents s c)) s) = .next t ∧
      (slotAt c t).reg = scan (slotAt c s).reg (fs.flatMap (feedBytes s)) ∧ SlotLive c t ∧ Idle t ∧
      ∀ x, x ≠ c → slotAt x t = slotAt x s

/-- R204: two CHECKSUMs with nothing but zero-length appends between them answer the same value. -/
def Obligations.QueriesAreRepeatable : Prop :=
  ∀ (s : State) (c : Nat) (k a : Word) (zs : List Feed), Idle s → SlotLive c s →
    (∀ z ∈ zs, ∃ k' a', z = Feed.append k' a' 0#64 ∨ z = Feed.appendImm k' a' 0#64) →
    ∃ t u, Host.Core.run Sys2Proof.core 5 (withEvents (feedEvents s c (Feed.checksum k a 0#64)) s) = .next t ∧
      Host.Core.run Sys2Proof.core (5 * (zs.length + 1))
        (withEvents ((zs ++ [Feed.checksum k a 0#64]).flatMap (feedEvents t c)) t) = .next u ∧
      t.errcode = .ok ∧ u.errcode = .ok ∧ u.result = t.result

/-- R205: CHECKSUM of a slot that has consumed no bytes since its CREATE answers 0. -/
def Obligations.EmptyDigestChecksumIsZero : Prop :=
  ∀ (s : State) (c : Nat), c < numCtx s.params → (slotAt c s).live = false →
    (∀ j, j < c → (slotAt j s).live = true) →
    ∃ t u, exec .create s = .next t ∧ t.result = BitVec.ofNat 64 c ∧
      exec (.checksum c) (accept (encode (.checksum c)) t) = .next u ∧ u.errcode = .ok ∧ u.result = 0#64

/-- R246: a `CMD` write arriving at the same moment as a completion: after it, it is accepted; before it, it is dropped with
`OVERRUN`. -/
def Obligations.SimultaneousWriteEitherWay : Prop :=
  ∀ (s : State) (L : Latch) (v : Word), EngineInv s → s.inflight = some L → ReadsAnswered s L →
    (∃ t, Host.Core.run Sys2Proof.core 2
        (withEvents [.engineRun, .hostWrite (regBase s.params + 0x58#64) 8 v] s) = .next t ∧
      t.busy = true ∧ t.overrun = s.overrun ∧
      t.inflight = some { w := v, a0 := s.arg0, a1 := s.arg1, sel := s.ctrl, i := 0, shadow := 0#64 }) ∧
    (∃ t, Host.Core.run Sys2Proof.core 2
        (withEvents [.hostWrite (regBase s.params + 0x58#64) 8 v, .engineRun] s) = .next t ∧
      t.busy = false ∧ t.overrun = true ∧ t.inflight = none)

/-- R88: the pseudo-instruction `crc.issue w` on an idle engine: five lines, at the end of which the command has completed with
the errors and values of its own execution; a word of no row of the opcode map has completed with `ILLEGAL`. -/
def Obligations.IssueSequenceRunsTheCommand : Prop :=
  ∀ (h : HostRun) (x : HostVar) (w : Word), Idle h.engine → h.line = 0 →
    ReadsAnswered (accept w h.engine) (newLatch w h.engine) →
    (∀ i, decode w = .ok i →
      ∃ k t, hostSteps (crcIssue x w 0) 5 h = .next k ∧ exec i (accept w h.engine) = .next t ∧ k.line = 5 ∧
        k.engine.busy = false ∧ k.engine.errcode = t.errcode ∧ k.engine.result = t.result ∧ k.engine.slots = t.slots ∧
        k.engine.overrun = h.engine.overrun) ∧
    (∀ e, decode w = .error e →
      ∃ k, hostSteps (crcIssue x w 0) 5 h = .next k ∧ k.line = 5 ∧ k.engine.busy = false ∧
        k.engine.errcode = .illegal ∧ k.engine.result = h.engine.result ∧ k.engine.slots = h.engine.slots ∧
        k.engine.overrun = h.engine.overrun)
end

