-- ==== Sys2Proof/Laws/Encoding.lean ====
section
/-! SUPPORT. The fields of a command word, and of an encoded command. -/

namespace Sys2Proof

/-- A word is its three fields put together (R81). -/
theorem word_of_fields (w : Word) :
    w = ((rsvField w).setWidth 64 <<< 16) ||| (Machine.zext64 (ctxField w) <<< 8) ||| Machine.zext64 (opcField w) := by
  apply BitVec.eq_of_getLsbD_eq
  intro i hi
  simp only [rsvField, ctxField, opcField, Machine.zext64, BitVec.getLsbD_or, BitVec.getLsbD_setWidth,
    BitVec.getLsbD_shiftLeft, BitVec.getLsbD_extractLsb']
  interval_cases i <;> simp

theorem opcField_encode (i : Instr) : opcField (encode i) = opcOf i := by
  apply BitVec.eq_of_getLsbD_eq
  intro k hk
  simp only [opcField, encode, Machine.zext64, BitVec.getLsbD_extractLsb', BitVec.getLsbD_or, BitVec.getLsbD_shiftLeft,
    BitVec.getLsbD_setWidth]
  interval_cases k <;> simp

theorem ctxField_encode (i : Instr) : ctxField (encode i) = ctxOf i := by
  apply BitVec.eq_of_getLsbD_eq
  intro k hk
  simp only [ctxField, encode, Machine.zext64, BitVec.getLsbD_extractLsb', BitVec.getLsbD_or, BitVec.getLsbD_shiftLeft,
    BitVec.getLsbD_setWidth]
  rw [BitVec.getLsbD_of_ge (opcOf i) _ (by omega)]
  simp [hk, show 8 + k < 64 by omega, show k < 64 by omega]

theorem rsvField_encode (i : Instr) : rsvField (encode i) = 0#48 := by
  apply BitVec.eq_of_getLsbD_eq
  intro k hk
  simp only [rsvField, encode, Machine.zext64, BitVec.getLsbD_extractLsb', BitVec.getLsbD_or, BitVec.getLsbD_shiftLeft,
    BitVec.getLsbD_setWidth]
  rw [BitVec.getLsbD_of_ge (opcOf i) _ (by omega), BitVec.getLsbD_of_ge (ctxOf i) _ (by omega)]
  simp

/-- A word matches a row without a CTX field when it is that row's word (R83). -/
theorem and_plainMask (w m : Word) : (w &&& plainMask) = m ↔ w = m := by
  rw [show plainMask = BitVec.allOnes 64 from rfl, BitVec.and_allOnes]

/-- The slot number of a well-formed command comes back from its `CTX` field. -/
theorem ctxOf_toNat (i : Instr) (c : Nat) (hs : i.slot? = some c) (h : i.wellFormed = true) : (ctxOf i).toNat = c := by
  have hc : c < 256 := by simpa [Instr.wellFormed, hs] using h
  rw [ctxOf, hs, Option.getD_some, BitVec.toNat_ofNat]
  exact Nat.mod_eq_of_lt hc

end Sys2Proof
end

