-- ==== Sys2Proof/Laws/Memory.lean ====
section
/-! SUPPORT. The laws of host memory as plain data: the canonical form is kept, and a read after a write. -/

namespace Sys2Proof.Machine

/-- Every listed address of `m` is above `a`. -/
def Memory.above (a : Nat) (m : List Host.Cell) : Prop := ∀ c ∈ m, a < c.1

theorem Memory.wf_nil : Memory.wf [] = true := rfl

theorem Memory.wf_iff (m : List Host.Cell) :
    Memory.wf m = true ↔ m.Pairwise (fun c d => c.1 < d.1) ∧ ∀ c ∈ m, c.1 < 2 ^ 64 ∧ c.2 ≠ Memory.blank := by
  simp [Memory.wf]

theorem Memory.wf_cons_iff (c : Host.Cell) (m : List Host.Cell) :
    Memory.wf (c :: m) = true ↔ Memory.above c.1 m ∧ c.1 < 2 ^ 64 ∧ c.2 ≠ Memory.blank ∧ Memory.wf m = true := by
  simp only [Memory.wf_iff, List.pairwise_cons, List.forall_mem_cons, Memory.above]
  tauto

theorem Memory.read_of_above (a : Nat) (m : List Host.Cell) (h : Memory.above a m) :
    Memory.read m a = Memory.blank := by
  induction m with
  | nil => rfl
  | cons c m ih =>
    have hc : a < c.1 := h c (by simp)
    rw [Memory.read, if_neg (by omega), ih (fun d hd => h d (by simp [hd]))]

theorem Memory.cons_wf (c : Host.Cell) (m : List Host.Cell) (hc : c.1 < 2 ^ 64) (ha : Memory.above c.1 m)
    (hm : Memory.wf m = true) : Memory.wf (Memory.cons c m) = true := by
  unfold Memory.cons
  split
  · exact hm
  · exact (Memory.wf_cons_iff c m).2 ⟨ha, hc, by assumption, hm⟩

theorem Memory.cons_above (a : Nat) (c : Host.Cell) (m : List Host.Cell) (hc : a < c.1) (hm : Memory.above a m) :
    Memory.above a (Memory.cons c m) := by
  unfold Memory.cons
  split
  · exact hm
  · intro d hd
    rcases List.mem_cons.1 hd with rfl | hd
    · exact hc
    · exact hm d hd

theorem Memory.read_cons (c : Host.Cell) (m : List Host.Cell) (ha : Memory.above c.1 m) (x : Nat) :
    Memory.read (Memory.cons c m) x = if x = c.1 then c.2 else Memory.read m x := by
  unfold Memory.cons
  by_cases hx : x = c.1
  · subst hx
    split
    · rename_i hb
      rw [Memory.read_of_above _ _ ha, if_pos rfl, hb]
    · simp [Memory.read]
  · split
    · simp
    · simp [Memory.read, hx, eq_comm]

theorem Memory.write_above (a x : Nat) (b : Byte) (m : List Host.Cell) (hx : x < a) (hm : Memory.above x m) :
    Memory.above x (Memory.write m a b) := by
  induction m with
  | nil => exact Memory.cons_above x (a, b) [] hx hm
  | cons c m ih =>
    have hm' : Memory.above x m := fun d hd => hm d (by simp [hd])
    rw [Memory.write]
    split
    · exact Memory.cons_above x (a, b) _ hx hm
    · split
      · exact Memory.cons_above x (a, b) _ hx hm'
      · intro d hd
        rcases List.mem_cons.1 hd with rfl | hd
        · exact hm d (by simp)
        · exact ih hm' d hd

/-- A store of a byte at a 64-bit address keeps the canonical form. -/
theorem Memory.write_wf (m : List Host.Cell) (a : Nat) (b : Byte) (ha : a < 2 ^ 64) (hm : Memory.wf m = true) :
    Memory.wf (Memory.write m a b) = true := by
  induction m with
  | nil => exact Memory.cons_wf (a, b) [] ha (by intro c hc; simp at hc) rfl
  | cons c m ih =>
    obtain ⟨h1, h2, h3, h4⟩ := (Memory.wf_cons_iff c m).1 hm
    rw [Memory.write]
    split
    · rename_i hlt
      refine Memory.cons_wf (a, b) _ ha ?_ hm
      intro d hd
      rcases List.mem_cons.1 hd with rfl | hd
      · exact hlt
      · exact lt_trans hlt (h1 d hd)
    · split
      · rename_i heq
        exact Memory.cons_wf (a, b) _ ha (by simpa [heq] using h1) h4
      · rename_i hlt hne
        exact (Memory.wf_cons_iff _ _).2 ⟨Memory.write_above a c.1 b m (by omega) h1, h2, h3, ih h4⟩

/-- A read after a store: the stored byte at its address, every other byte as before. -/
theorem Memory.read_write (m : List Host.Cell) (a : Nat) (b : Byte) (x : Nat) (hm : Memory.wf m = true) :
    Memory.read (Memory.write m a b) x = if x = a then b else Memory.read m x := by
  induction m with
  | nil => exact Memory.read_cons (a, b) [] (by intro c hc; simp at hc) x
  | cons c m ih =>
    obtain ⟨h1, -, -, h4⟩ := (Memory.wf_cons_iff c m).1 hm
    rw [Memory.write]
    split
    · rename_i hlt
      refine Memory.read_cons (a, b) (c :: m) ?_ x
      intro d hd
      rcases List.mem_cons.1 hd with rfl | hd
      · exact hlt
      · exact lt_trans hlt (h1 d hd)
    · split
      · rename_i heq
        rw [Memory.read_cons (a, b) m (by simpa [heq] using h1) x]
        by_cases hx : x = a
        · simp [hx]
        · rw [if_neg hx, if_neg hx, Memory.read, if_neg (by omega)]
      · rename_i hlt hne
        rw [Memory.read, Memory.read]
        by_cases hx : x = a
        · rw [if_neg (by omega), ih h4, if_pos hx, if_pos hx]
        · rw [ih h4, if_neg hx, if_neg hx]

end Sys2Proof.Machine
end

