-- ==== Sys2Proof/Laws/State.lean ====
section
/-! SUPPORT. One lemma per field per update of the state, true by rfl, so that no later proof unfolds a record update. -/

namespace Sys2Proof.Machine

@[simp] theorem accept_params (w : Word) (s : State) : (accept w s).params = s.params := rfl
@[simp] theorem accept_tables (w : Word) (s : State) : (accept w s).tables = s.tables := rfl
@[simp] theorem accept_tblReady (w : Word) (s : State) : (accept w s).tblReady = s.tblReady := rfl
@[simp] theorem accept_busy (w : Word) (s : State) : (accept w s).busy = true := rfl
@[simp] theorem accept_overrun (w : Word) (s : State) : (accept w s).overrun = s.overrun := rfl
@[simp] theorem accept_errcode (w : Word) (s : State) : (accept w s).errcode = s.errcode := rfl
@[simp] theorem accept_ctrl (w : Word) (s : State) : (accept w s).ctrl = s.ctrl := rfl
@[simp] theorem accept_arg0 (w : Word) (s : State) : (accept w s).arg0 = s.arg0 := rfl
@[simp] theorem accept_arg1 (w : Word) (s : State) : (accept w s).arg1 = s.arg1 := rfl
@[simp] theorem accept_result (w : Word) (s : State) : (accept w s).result = s.result := rfl
@[simp] theorem accept_slots (w : Word) (s : State) : (accept w s).slots = s.slots := rfl
@[simp] theorem accept_inflight (w : Word) (s : State) : (accept w s).inflight = some (newLatch w s) := rfl
@[simp] theorem accept_builder (w : Word) (s : State) : (accept w s).builder = s.builder := rfl
@[simp] theorem accept_accessed (w : Word) (s : State) : (accept w s).accessed = s.accessed := rfl
@[simp] theorem accept_mem (w : Word) (s : State) : (accept w s).mem = s.mem := rfl
@[simp] theorem accept_window (w : Word) (s : State) : (accept w s).window = [] := rfl
@[simp] theorem accept_draws (w : Word) (s : State) : (accept w s).draws = s.draws + 1 := rfl
@[simp] theorem accept_portReads (w : Word) (s : State) : (accept w s).portReads = [] := rfl
@[simp] theorem accept_reply (w : Word) (s : State) : (accept w s).reply = s.reply := rfl
@[simp] theorem accept_events (w : Word) (s : State) : (accept w s).events = s.events := rfl

@[simp] theorem complete_params (e : ErrCode) (v : Option Word) (g : Option (Nat × Slot)) (s : State) : (complete e v g s).params = s.params := rfl
@[simp] theorem complete_tables (e : ErrCode) (v : Option Word) (g : Option (Nat × Slot)) (s : State) : (complete e v g s).tables = s.tables := rfl
@[simp] theorem complete_tblReady (e : ErrCode) (v : Option Word) (g : Option (Nat × Slot)) (s : State) : (complete e v g s).tblReady = s.tblReady := rfl
@[simp] theorem complete_busy (e : ErrCode) (v : Option Word) (g : Option (Nat × Slot)) (s : State) : (complete e v g s).busy = false := rfl
@[simp] theorem complete_overrun (e : ErrCode) (v : Option Word) (g : Option (Nat × Slot)) (s : State) : (complete e v g s).overrun = s.overrun := rfl
@[simp] theorem complete_errcode (e : ErrCode) (v : Option Word) (g : Option (Nat × Slot)) (s : State) : (complete e v g s).errcode = e := rfl
@[simp] theorem complete_ctrl (e : ErrCode) (v : Option Word) (g : Option (Nat × Slot)) (s : State) : (complete e v g s).ctrl = s.ctrl := rfl
@[simp] theorem complete_arg0 (e : ErrCode) (v : Option Word) (g : Option (Nat × Slot)) (s : State) : (complete e v g s).arg0 = s.arg0 := rfl
@[simp] theorem complete_arg1 (e : ErrCode) (v : Option Word) (g : Option (Nat × Slot)) (s : State) : (complete e v g s).arg1 = s.arg1 := rfl
@[simp] theorem complete_result (e : ErrCode) (v : Option Word) (g : Option (Nat × Slot)) (s : State) : (complete e v g s).result = if e = .ok then v.getD s.result else s.result := rfl
@[simp] theorem complete_slots (e : ErrCode) (v : Option Word) (g : Option (Nat × Slot)) (s : State) : (complete e v g s).slots = if e = .ok then applyStaged g s.slots else s.slots := rfl
@[simp] theorem complete_inflight (e : ErrCode) (v : Option Word) (g : Option (Nat × Slot)) (s : State) : (complete e v g s).inflight = none := rfl
@[simp] theorem complete_builder (e : ErrCode) (v : Option Word) (g : Option (Nat × Slot)) (s : State) : (complete e v g s).builder = s.builder := rfl
@[simp] theorem complete_accessed (e : ErrCode) (v : Option Word) (g : Option (Nat × Slot)) (s : State) : (complete e v g s).accessed = s.accessed := rfl
@[simp] theorem complete_mem (e : ErrCode) (v : Option Word) (g : Option (Nat × Slot)) (s : State) : (complete e v g s).mem = s.mem := rfl
@[simp] theorem complete_window (e : ErrCode) (v : Option Word) (g : Option (Nat × Slot)) (s : State) : (complete e v g s).window = [] := rfl
@[simp] theorem complete_draws (e : ErrCode) (v : Option Word) (g : Option (Nat × Slot)) (s : State) : (complete e v g s).draws = s.draws := rfl
@[simp] theorem complete_portReads (e : ErrCode) (v : Option Word) (g : Option (Nat × Slot)) (s : State) : (complete e v g s).portReads = s.portReads := rfl
@[simp] theorem complete_reply (e : ErrCode) (v : Option Word) (g : Option (Nat × Slot)) (s : State) : (complete e v g s).reply = s.reply := rfl
@[simp] theorem complete_events (e : ErrCode) (v : Option Word) (g : Option (Nat × Slot)) (s : State) : (complete e v g s).events = s.events := rfl

@[simp] theorem raiseError_params (e : ErrCode) (s : State) : (raiseError e s).params = s.params := rfl
@[simp] theorem raiseError_tables (e : ErrCode) (s : State) : (raiseError e s).tables = s.tables := rfl
@[simp] theorem raiseError_tblReady (e : ErrCode) (s : State) : (raiseError e s).tblReady = s.tblReady := rfl
@[simp] theorem raiseError_busy (e : ErrCode) (s : State) : (raiseError e s).busy = false := rfl
@[simp] theorem raiseError_overrun (e : ErrCode) (s : State) : (raiseError e s).overrun = s.overrun := rfl
@[simp] theorem raiseError_errcode (e : ErrCode) (s : State) : (raiseError e s).errcode = e := rfl
@[simp] theorem raiseError_ctrl (e : ErrCode) (s : State) : (raiseError e s).ctrl = s.ctrl := rfl
@[simp] theorem raiseError_arg0 (e : ErrCode) (s : State) : (raiseError e s).arg0 = s.arg0 := rfl
@[simp] theorem raiseError_arg1 (e : ErrCode) (s : State) : (raiseError e s).arg1 = s.arg1 := rfl
@[simp] theorem raiseError_result (e : ErrCode) (s : State) : (raiseError e s).result = s.result := by simp [raiseError, complete, applyStaged]
@[simp] theorem raiseError_slots (e : ErrCode) (s : State) : (raiseError e s).slots = s.slots := by simp [raiseError, complete, applyStaged]
@[simp] theorem raiseError_inflight (e : ErrCode) (s : State) : (raiseError e s).inflight = none := rfl
@[simp] theorem raiseError_builder (e : ErrCode) (s : State) : (raiseError e s).builder = s.builder := rfl
@[simp] theorem raiseError_accessed (e : ErrCode) (s : State) : (raiseError e s).accessed = s.accessed := rfl
@[simp] theorem raiseError_mem (e : ErrCode) (s : State) : (raiseError e s).mem = s.mem := rfl
@[simp] theorem raiseError_window (e : ErrCode) (s : State) : (raiseError e s).window = [] := rfl
@[simp] theorem raiseError_draws (e : ErrCode) (s : State) : (raiseError e s).draws = s.draws := rfl
@[simp] theorem raiseError_portReads (e : ErrCode) (s : State) : (raiseError e s).portReads = s.portReads := rfl
@[simp] theorem raiseError_reply (e : ErrCode) (s : State) : (raiseError e s).reply = s.reply := rfl
@[simp] theorem raiseError_events (e : ErrCode) (s : State) : (raiseError e s).events = s.events := rfl

@[simp] theorem logReads_params (L : Latch) (i n : Nat) (s : State) : (logReads L i n s).params = s.params := rfl
@[simp] theorem logReads_tables (L : Latch) (i n : Nat) (s : State) : (logReads L i n s).tables = s.tables := rfl
@[simp] theorem logReads_tblReady (L : Latch) (i n : Nat) (s : State) : (logReads L i n s).tblReady = s.tblReady := rfl
@[simp] theorem logReads_busy (L : Latch) (i n : Nat) (s : State) : (logReads L i n s).busy = s.busy := rfl
@[simp] theorem logReads_overrun (L : Latch) (i n : Nat) (s : State) : (logReads L i n s).overrun = s.overrun := rfl
@[simp] theorem logReads_errcode (L : Latch) (i n : Nat) (s : State) : (logReads L i n s).errcode = s.errcode := rfl
@[simp] theorem logReads_ctrl (L : Latch) (i n : Nat) (s : State) : (logReads L i n s).ctrl = s.ctrl := rfl
@[simp] theorem logReads_arg0 (L : Latch) (i n : Nat) (s : State) : (logReads L i n s).arg0 = s.arg0 := rfl
@[simp] theorem logReads_arg1 (L : Latch) (i n : Nat) (s : State) : (logReads L i n s).arg1 = s.arg1 := rfl
@[simp] theorem logReads_result (L : Latch) (i n : Nat) (s : State) : (logReads L i n s).result = s.result := rfl
@[simp] theorem logReads_slots (L : Latch) (i n : Nat) (s : State) : (logReads L i n s).slots = s.slots := rfl
@[simp] theorem logReads_inflight (L : Latch) (i n : Nat) (s : State) : (logReads L i n s).inflight = s.inflight := rfl
@[simp] theorem logReads_builder (L : Latch) (i n : Nat) (s : State) : (logReads L i n s).builder = s.builder := rfl
@[simp] theorem logReads_accessed (L : Latch) (i n : Nat) (s : State) : (logReads L i n s).accessed = s.accessed := rfl
@[simp] theorem logReads_mem (L : Latch) (i n : Nat) (s : State) : (logReads L i n s).mem = s.mem := rfl
@[simp] theorem logReads_window (L : Latch) (i n : Nat) (s : State) : (logReads L i n s).window = s.window := rfl
@[simp] theorem logReads_draws (L : Latch) (i n : Nat) (s : State) : (logReads L i n s).draws = s.draws := rfl
@[simp] theorem logReads_portReads (L : Latch) (i n : Nat) (s : State) : (logReads L i n s).portReads = s.portReads ++ (List.range' i n).map (rangeAddr L) := rfl
@[simp] theorem logReads_reply (L : Latch) (i n : Nat) (s : State) : (logReads L i n s).reply = s.reply := rfl
@[simp] theorem logReads_events (L : Latch) (i n : Nat) (s : State) : (logReads L i n s).events = s.events := rfl

@[simp] theorem memStore_params (a : Word) (b : Byte) (s : State) : (memStore a b s).params = s.params := rfl
@[simp] theorem memStore_tables (a : Word) (b : Byte) (s : State) : (memStore a b s).tables = s.tables := rfl
@[simp] theorem memStore_tblReady (a : Word) (b : Byte) (s : State) : (memStore a b s).tblReady = s.tblReady := rfl
@[simp] theorem memStore_busy (a : Word) (b : Byte) (s : State) : (memStore a b s).busy = s.busy := rfl
@[simp] theorem memStore_overrun (a : Word) (b : Byte) (s : State) : (memStore a b s).overrun = s.overrun := rfl
@[simp] theorem memStore_errcode (a : Word) (b : Byte) (s : State) : (memStore a b s).errcode = s.errcode := rfl
@[simp] theorem memStore_ctrl (a : Word) (b : Byte) (s : State) : (memStore a b s).ctrl = s.ctrl := rfl
@[simp] theorem memStore_arg0 (a : Word) (b : Byte) (s : State) : (memStore a b s).arg0 = s.arg0 := rfl
@[simp] theorem memStore_arg1 (a : Word) (b : Byte) (s : State) : (memStore a b s).arg1 = s.arg1 := rfl
@[simp] theorem memStore_result (a : Word) (b : Byte) (s : State) : (memStore a b s).result = s.result := rfl
@[simp] theorem memStore_slots (a : Word) (b : Byte) (s : State) : (memStore a b s).slots = s.slots := rfl
@[simp] theorem memStore_inflight (a : Word) (b : Byte) (s : State) : (memStore a b s).inflight = s.inflight := rfl
@[simp] theorem memStore_builder (a : Word) (b : Byte) (s : State) : (memStore a b s).builder = s.builder := rfl
@[simp] theorem memStore_accessed (a : Word) (b : Byte) (s : State) : (memStore a b s).accessed = s.accessed := rfl
@[simp] theorem memStore_mem (a : Word) (b : Byte) (s : State) : (memStore a b s).mem = Memory.write s.mem a.toNat b := rfl
@[simp] theorem memStore_window (a : Word) (b : Byte) (s : State) : (memStore a b s).window = if s.inflight.isSome then (a.toNat, Memory.read s.mem a.toNat) :: s.window else s.window := rfl
@[simp] theorem memStore_draws (a : Word) (b : Byte) (s : State) : (memStore a b s).draws = s.draws := rfl
@[simp] theorem memStore_portReads (a : Word) (b : Byte) (s : State) : (memStore a b s).portReads = s.portReads := rfl
@[simp] theorem memStore_reply (a : Word) (b : Byte) (s : State) : (memStore a b s).reply = s.reply := rfl
@[simp] theorem memStore_events (a : Word) (b : Byte) (s : State) : (memStore a b s).events = s.events := rfl

@[simp] theorem finishBuild_params (s : State) : (finishBuild s).params = s.params := rfl
@[simp] theorem finishBuild_tables (s : State) : (finishBuild s).tables = builtTables := rfl
@[simp] theorem finishBuild_tblReady (s : State) : (finishBuild s).tblReady = true := rfl
@[simp] theorem finishBuild_busy (s : State) : (finishBuild s).busy = false := rfl
@[simp] theorem finishBuild_overrun (s : State) : (finishBuild s).overrun = s.overrun := rfl
@[simp] theorem finishBuild_errcode (s : State) : (finishBuild s).errcode = s.errcode := rfl
@[simp] theorem finishBuild_ctrl (s : State) : (finishBuild s).ctrl = s.ctrl := rfl
@[simp] theorem finishBuild_arg0 (s : State) : (finishBuild s).arg0 = s.arg0 := rfl
@[simp] theorem finishBuild_arg1 (s : State) : (finishBuild s).arg1 = s.arg1 := rfl
@[simp] theorem finishBuild_result (s : State) : (finishBuild s).result = s.result := rfl
@[simp] theorem finishBuild_slots (s : State) : (finishBuild s).slots = s.slots := rfl
@[simp] theorem finishBuild_inflight (s : State) : (finishBuild s).inflight = s.inflight := rfl
@[simp] theorem finishBuild_builder (s : State) : (finishBuild s).builder = .done := rfl
@[simp] theorem finishBuild_accessed (s : State) : (finishBuild s).accessed = s.accessed := rfl
@[simp] theorem finishBuild_mem (s : State) : (finishBuild s).mem = s.mem := rfl
@[simp] theorem finishBuild_window (s : State) : (finishBuild s).window = s.window := rfl
@[simp] theorem finishBuild_draws (s : State) : (finishBuild s).draws = s.draws := rfl
@[simp] theorem finishBuild_portReads (s : State) : (finishBuild s).portReads = s.portReads := rfl
@[simp] theorem finishBuild_reply (s : State) : (finishBuild s).reply = s.reply := rfl
@[simp] theorem finishBuild_events (s : State) : (finishBuild s).events = s.events := rfl

@[simp] theorem resetEngine_params (s : State) : (resetEngine s).params = s.params := rfl
@[simp] theorem resetEngine_tables (s : State) : (resetEngine s).tables = State.reset.tables := rfl
@[simp] theorem resetEngine_tblReady (s : State) : (resetEngine s).tblReady = State.reset.tblReady := rfl
@[simp] theorem resetEngine_busy (s : State) : (resetEngine s).busy = State.reset.busy := rfl
@[simp] theorem resetEngine_overrun (s : State) : (resetEngine s).overrun = State.reset.overrun := rfl
@[simp] theorem resetEngine_errcode (s : State) : (resetEngine s).errcode = State.reset.errcode := rfl
@[simp] theorem resetEngine_ctrl (s : State) : (resetEngine s).ctrl = State.reset.ctrl := rfl
@[simp] theorem resetEngine_arg0 (s : State) : (resetEngine s).arg0 = State.reset.arg0 := rfl
@[simp] theorem resetEngine_arg1 (s : State) : (resetEngine s).arg1 = State.reset.arg1 := rfl
@[simp] theorem resetEngine_result (s : State) : (resetEngine s).result = State.reset.result := rfl
@[simp] theorem resetEngine_slots (s : State) : (resetEngine s).slots = State.reset.slots := rfl
@[simp] theorem resetEngine_inflight (s : State) : (resetEngine s).inflight = State.reset.inflight := rfl
@[simp] theorem resetEngine_builder (s : State) : (resetEngine s).builder = State.reset.builder := rfl
@[simp] theorem resetEngine_accessed (s : State) : (resetEngine s).accessed = State.reset.accessed := rfl
@[simp] theorem resetEngine_mem (s : State) : (resetEngine s).mem = s.mem := rfl
@[simp] theorem resetEngine_window (s : State) : (resetEngine s).window = State.reset.window := rfl
@[simp] theorem resetEngine_draws (s : State) : (resetEngine s).draws = s.draws := rfl
@[simp] theorem resetEngine_portReads (s : State) : (resetEngine s).portReads = State.reset.portReads := rfl
@[simp] theorem resetEngine_reply (s : State) : (resetEngine s).reply = State.reset.reply := rfl
@[simp] theorem resetEngine_events (s : State) : (resetEngine s).events = s.events := rfl

end Sys2Proof.Machine
end

