-- ==== Sys2Proof/Laws/Ops.lean ====
section
/-! SUPPORT. What each shared operation can do, said once. -/

namespace Sys2Proof.Machine

/-! ### Context slots -/

theorem slotAt_applyStaged (v : Vector Slot 256) (c x : Nat) (g : Slot) (hc : c < 256) :
    ((applyStaged (some (c, g)) v)[x]?).getD freeSlot = if x = c then g else (v[x]?).getD freeSlot := by
  simp only [applyStaged, Vector.getElem?_setIfInBounds]
  by_cases h : x = c
  · subst h; simp [hc]
  · rw [if_neg h, if_neg (fun h' => h h'.symm)]

theorem numCtx_le (p : Params) : numCtx p ≤ 256 := by
  have := p.numCtxM1.isLt
  unfold numCtx
  omega

theorem numCtx_pos (p : Params) : 0 < numCtx p := by
  unfold numCtx
  omega

/-- The three results of the context check (R194). -/
theorem checkCtx_cases (c : Nat) (s : State) :
    (numCtx s.params ≤ c ∧ checkCtx c s = some .badCtx) ∨
    (c < numCtx s.params ∧ (slotAt c s).live = false ∧ checkCtx c s = some .deadCtx) ∨
    (c < numCtx s.params ∧ (slotAt c s).live = true ∧ checkCtx c s = none) := by
  unfold checkCtx
  rcases Nat.lt_or_ge c (numCtx s.params) with h | h
  · rcases Bool.eq_false_or_eq_true (slotAt c s).live with hl | hl
    · exact .inr (.inr ⟨h, hl, by rw [if_neg (by omega), hl]; rfl⟩)
    · exact .inr (.inl ⟨h, hl, by rw [if_neg (by omega), hl]; rfl⟩)
  · exact .inl ⟨h, by rw [if_pos h]⟩

theorem checkCtx_eq_none_iff (c : Nat) (s : State) :
    checkCtx c s = none ↔ c < numCtx s.params ∧ (slotAt c s).live = true := by
  rcases checkCtx_cases c s with ⟨h, e⟩ | ⟨h, hl, e⟩ | ⟨h, hl, e⟩
  · simp [e]; omega
  · simp [e, hl]
  · simp [e, h, hl]

/-- Which slot CREATE takes (R196). -/
theorem leastFree_eq_some_iff (c : Nat) (s : State) :
    leastFree s = some c ↔
      c < numCtx s.params ∧ (slotAt c s).live = false ∧ ∀ j, j < c → (slotAt j s).live = true := by
  unfold leastFree
  rw [List.find?_range_eq_some]
  simp
  tauto

theorem leastFree_eq_none_iff (s : State) :
    leastFree s = none ↔ ∀ c, c < numCtx s.params → (slotAt c s).live = true := by
  unfold leastFree
  rw [List.find?_range_eq_none]
  simp

/-! ### The read port -/

theorem heldValues_of_window_nil (a : Nat) (s : State) (h : s.window = []) : heldValues a s = [Memory.read s.mem a] := by
  simp [heldValues, h]

/-- Without a racing store a read returns the byte in memory. -/
theorem portByte_of_window_nil (a i : Nat) (s : State) (h : s.window = []) : portByte a i s = Memory.read s.mem a := by
  rw [portByte, heldValues_of_window_nil a s h]

/-- The byte a read returns is one of those its address held during the window (R70 item 3). -/
theorem portByte_mem (a i : Nat) (s : State) : portByte a i s ∈ heldValues a s := by
  unfold portByte
  split
  · rename_i v h
    simp [h]
  · rename_i h
    have hpos : 0 < (heldValues a s).length := by simp [heldValues]
    have hlt := Nat.mod_lt (Config.raceDraw s.draws i) hpos
    rw [List.getD_eq_getElem _ _ hlt]
    exact List.getElem_mem hlt

/-- The three results of a read (R62). -/
theorem memRead_cases (L : Latch) (i : Nat) (s : State) :
    (memSilent s.params (rangeAddr L i) = true ∧ memRead L i s = .silent) ∨
    (memSilent s.params (rangeAddr L i) = false ∧ memFault s.params (rangeAddr L i) = true ∧ memRead L i s = .busFault) ∨
    (memSilent s.params (rangeAddr L i) = false ∧ memFault s.params (rangeAddr L i) = false ∧
      memRead L i s = .byte (portByte (rangeAddr L i).toNat i s)) := by
  unfold memRead
  rcases Bool.eq_false_or_eq_true (memSilent s.params (rangeAddr L i)) with h | h
  · simp [h]
  · rcases Bool.eq_false_or_eq_true (memFault s.params (rangeAddr L i)) with h' | h' <;> simp [h, h']

/-- A range whose every read is answered with a byte gives those bytes, in index order (R198). -/
theorem readRange_bytes (L : Latch) (i n : Nat) (s : State)
    (h : ∀ j, i ≤ j → j < i + n →
      memSilent s.params (rangeAddr L j) = false ∧ memFault s.params (rangeAddr L j) = false) :
    readRange L i n s = .bytes ((List.range' i n).map (fun j => portByte (rangeAddr L j).toNat j s)) := by
  induction n generalizing i with
  | zero => rfl
  | succ n ih =>
    have h0 := h i (by omega) (by omega)
    rw [readRange]
    rcases memRead_cases L i s with ⟨h1, -⟩ | ⟨-, h2, -⟩ | ⟨-, -, e⟩
    · simp [h0.1] at h1
    · simp [h0.2] at h2
    · rw [e]
      simp only
      rw [ih (i + 1) (fun j h1 h2 => h j (by omega) (by omega))]
      simp [consByte, List.range'_succ]

/-- The outcome of a range of `m + n` bytes from the outcomes of its two parts. -/
theorem readRange_add (L : Latch) (i m n : Nat) (s : State) :
    readRange L i (m + n) s =
      match readRange L i m s with
      | .silent => .silent
      | .busFault k => .busFault k
      | .bytes d =>
        match readRange L (i + m) n s with
        | .silent => .silent
        | .busFault k => .busFault (m + k)
        | .bytes e => .bytes (d ++ e) := by
  induction m generalizing i with
  | zero =>
    simp only [Nat.zero_add, readRange, Nat.add_zero, List.nil_append]
    cases readRange L i n s <;> rfl
  | succ m ih =>
    rw [show m + 1 + n = (m + n) + 1 by omega, readRange, readRange]
    cases memRead L i s with
    | silent => rfl
    | busFault => rfl
    | byte v =>
      simp only
      rw [ih (i + 1), show i + (m + 1) = i + 1 + m by omega]
      cases readRange L (i + 1) m s with
      | silent => rfl
      | busFault k => rfl
      | bytes d =>
        simp only [consByte]
        cases readRange L (i + 1 + m) n s with
        | silent => rfl
        | busFault k => simp only; congr 1; omega
        | bytes e => rfl

/-- The bytes of a range are as many as its length. -/
theorem readRange_length (L : Latch) (i n : Nat) (s : State) (d : List Byte) (h : readRange L i n s = .bytes d) :
    d.length = n := by
  induction n generalizing i d with
  | zero => cases h; rfl
  | succ n ih =>
    rw [readRange] at h
    cases hm : memRead L i s with
    | silent => simp [hm] at h
    | busFault => simp [hm] at h
    | byte v =>
      rw [hm] at h
      simp only at h
      cases hr : readRange L (i + 1) n s with
      | silent => simp [hr, consByte] at h
      | busFault k => simp [hr, consByte] at h
      | bytes e =>
        rw [hr] at h
        cases h
        simp [ih (i + 1) e hr]

/-- The outcome of a range depends on nothing but the parameters, the memory, the window and the draw. -/
theorem readRange_congr (L : Latch) (i n : Nat) (s t : State) (hp : t.params = s.params) (hm : t.mem = s.mem)
    (hw : t.window = s.window) (hd : t.draws = s.draws) : readRange L i n t = readRange L i n s := by
  induction n generalizing i with
  | zero => rfl
  | succ n ih =>
    rw [readRange, readRange, ih (i + 1)]
    have : memRead L i t = memRead L i s := by simp only [memRead, portByte, heldValues, hp, hm, hw, hd]
    rw [this]

/-- A range whose every read is answered gives its bytes, or the first fault. -/
theorem readRange_answered (L : Latch) (i n : Nat) (s : State)
    (h : ∀ j, i ≤ j → j < i + n → memSilent s.params (rangeAddr L j) = false) :
    (∃ d, readRange L i n s = .bytes d ∧ ∀ j, i ≤ j → j < i + n → memFault s.params (rangeAddr L j) = false) ∨
    (∃ k, k < n ∧ readRange L i n s = .busFault k ∧ memFault s.params (rangeAddr L (i + k)) = true) := by
  induction n generalizing i with
  | zero => exact .inl ⟨[], rfl, fun j h1 h2 => by omega⟩
  | succ n ih =>
    rw [readRange]
    rcases memRead_cases L i s with ⟨h1, -⟩ | ⟨-, h2, e⟩ | ⟨-, h2, e⟩
    · rw [h i (by omega) (by omega)] at h1
      cases h1
    · rw [e]
      exact .inr ⟨0, by omega, rfl, h2⟩
    · rw [e]
      simp only
      rcases ih (i + 1) (fun j h1 h2 => h j (by omega) (by omega)) with ⟨d, hd, hf⟩ | ⟨k, hk, hd, hf⟩
      · rw [hd]
        refine .inl ⟨_, rfl, fun j h1 h2' => ?_⟩
        rcases Nat.eq_or_lt_of_le h1 with rfl | h1
        · exact h2
        · exact hf j h1 (by omega)
      · rw [hd]
        exact .inr ⟨k + 1, by omega, rfl, by rw [← hf]; congr 2; omega⟩

/-- Where a range ends within the address space its addresses do not wrap (R197). -/
theorem rangeAddr_toNat (L : Latch) (j : Nat) (h : L.a0.toNat + L.a1.toNat ≤ 2 ^ 64) (hj : j < L.a1.toNat) :
    (rangeAddr L j).toNat = L.a0.toNat + j := by
  have := L.a1.isLt
  rw [rangeAddr, BitVec.toNat_add, BitVec.toNat_ofNat, Nat.mod_eq_of_lt (show j < 2 ^ 64 by omega), Nat.mod_eq_of_lt]
  omega

/-! ### The command cycle -/

@[simp] theorem slotAt_accept (c : Nat) (w : Word) (s : State) : slotAt c (accept w s) = slotAt c s := rfl

@[simp] theorem slotAt_logReads (c : Nat) (L : Latch) (i n : Nat) (s : State) : slotAt c (logReads L i n s) = slotAt c s :=
  rfl

@[simp] theorem slotAt_raiseError (c : Nat) (e : ErrCode) (s : State) : slotAt c (raiseError e s) = slotAt c s := by
  simp [slotAt]

/-- What a successful completion leaves in slot `x` (R192, R193). -/
theorem slotAt_complete_ok (x c : Nat) (v : Option Word) (g : Slot) (s : State) (hc : c < 256) :
    slotAt x (complete .ok v (some (c, g)) s) = if x = c then g else slotAt x s := by
  simp [slotAt, slotAt_applyStaged, hc]

@[simp] theorem slotAt_complete_none (x : Nat) (e : ErrCode) (v : Option Word) (s : State) :
    slotAt x (complete e v none s) = slotAt x s := by
  simp [slotAt, applyStaged]

/-- An error changes `ERRCODE` and ends the command, and nothing else (R241). -/
theorem raiseError_eq (e : ErrCode) (s : State) :
    raiseError e s = { s with errcode := e, inflight := none, busy := false, window := [] } := by
  simp [raiseError, complete, applyStaged]

@[simp] theorem orRaise_none (s t : State) : orRaise none s t = t := rfl

@[simp] theorem orRaise_some (e : ErrCode) (s t : State) : orRaise (some e) s t = raiseError e s := rfl

/-- The checks of two lists in order: the second list counts only where the first finds nothing (R242). -/
theorem orRaise_or (a b : Option ErrCode) (s t : State) : orRaise (a.or b) s t = orRaise a s (orRaise b s t) := by
  cases a <;> rfl

theorem operandLatch_of_inflight (s : State) (L : Latch) (h : s.inflight = some L) : operandLatch s = L := by
  simp [operandLatch, h]

end Sys2Proof.Machine
end

