-- ==== Sys2Proof/Laws/PerInstr.lean ====
section
/-! SUPPORT. The statements made of every command as syntax, one lemma for each. -/

namespace Sys2Proof.Laws.EncodeFields

/-- Encoding a well-formed command puts its operation code in `OPC`, its slot number in `CTX` (0 where it has none), and 0 in
`RSV`; and no other command has its operation code and slot number (R81, R83). -/
def Statement (i : Instr) : Prop :=
  i.wellFormed = true →
    opcField (encode i) = opcOf i ∧ (ctxField (encode i)).toNat = i.slot?.getD 0 ∧ rsvField (encode i) = 0#48 ∧
      ∀ j : Instr, opcOf j = opcOf i → j.slot? = i.slot? → j = i

theorem of_fields (i : Instr) (hc : i.wellFormed = true → i.slot?.getD 0 < 256)
    (hu : ∀ j : Instr, opcOf j = opcOf i → j.slot? = i.slot? → j = i) : Statement i := by
  intro h
  refine ⟨opcField_encode i, ?_, rsvField_encode i, hu⟩
  rw [ctxField_encode, ctxOf, BitVec.toNat_ofNat]
  exact Nat.mod_eq_of_lt (hc h)

theorem nop : Statement .nop :=
  of_fields _ (fun _ => by decide) (by intro j h1 h2; cases j <;> simp_all [opcOf, Instr.slot?])

theorem create : Statement .create :=
  of_fields _ (fun _ => by decide) (by intro j h1 h2; cases j <;> simp_all [opcOf, Instr.slot?])

theorem append (c : Nat) : Statement (.append c) :=
  of_fields _ (by simp [Instr.wellFormed, Instr.slot?]) (by intro j h1 h2; cases j <;> simp_all [opcOf, Instr.slot?])

theorem appendImm (c : Nat) : Statement (.appendImm c) :=
  of_fields _ (by simp [Instr.wellFormed, Instr.slot?]) (by intro j h1 h2; cases j <;> simp_all [opcOf, Instr.slot?])

theorem checksum (c : Nat) : Statement (.checksum c) :=
  of_fields _ (by simp [Instr.wellFormed, Instr.slot?]) (by intro j h1 h2; cases j <;> simp_all [opcOf, Instr.slot?])

theorem getreg (c : Nat) : Statement (.getreg c) :=
  of_fields _ (by simp [Instr.wellFormed, Instr.slot?]) (by intro j h1 h2; cases j <;> simp_all [opcOf, Instr.slot?])

theorem destroy (c : Nat) : Statement (.destroy c) :=
  of_fields _ (by simp [Instr.wellFormed, Instr.slot?]) (by intro j h1 h2; cases j <;> simp_all [opcOf, Instr.slot?])

theorem stepByte : Statement .stepByte :=
  of_fields _ (fun _ => by decide) (by intro j h1 h2; cases j <;> simp_all [opcOf, Instr.slot?])

theorem stepWord : Statement .stepWord :=
  of_fields _ (fun _ => by decide) (by intro j h1 h2; cases j <;> simp_all [opcOf, Instr.slot?])

theorem tblRead : Statement .tblRead :=
  of_fields _ (fun _ => by decide) (by intro j h1 h2; cases j <;> simp_all [opcOf, Instr.slot?])

end Sys2Proof.Laws.EncodeFields
end

