-- ==== Sys2Proof/Laws/RegisterBlock.lean ====
section
/-! SUPPORT. Where a host access of the register block lands, and what an issue of a command can do. -/

namespace Sys2Proof.Machine

theorem regBase_toNat (p : Params) : (regBase p).toNat = p.regBaseHi.toNat * 256 := by
  rw [regBase, BitVec.toNat_append]
  simp [Nat.shiftLeft_eq]

/-- The address of an offset of the block does not wrap: `REG_BASE` is aligned to 256 bytes (R4). -/
theorem regBase_add_toNat (p : Params) (off : Nat) (h : off < 256) :
    (regBase p + BitVec.ofNat 64 off).toNat = (regBase p).toNat + off := by
  have := p.regBaseHi.isLt
  rw [BitVec.toNat_add, BitVec.toNat_ofNat, regBase_toNat, Nat.mod_eq_of_lt (show off < 2 ^ 64 by omega),
    Nat.mod_eq_of_lt]
  omega

/-- An aligned 64-bit access of the block reaches the slot at its offset (R21). -/
theorem blockAccess_slot (p : Params) (off : Nat) (h : off < 256) (h8 : off % 8 = 0) :
    blockAccess p (regBase p + BitVec.ofNat 64 off) 8 = .slot off := by
  have := regBase_toNat p
  rw [blockAccess, regBase_add_toNat p off h, if_pos (by omega), if_pos (by omega)]
  congr 1
  omega

/-- Any other access of the block is a bus error (R21). -/
theorem blockAccess_busError (p : Params) (off n : Nat) (h : off < 256) (hn : 0 < n) (h8 : ¬(n = 8 ∧ off % 8 = 0)) :
    blockAccess p (regBase p + BitVec.ofNat 64 off) n = .busError := by
  have := regBase_toNat p
  rw [blockAccess, regBase_add_toNat p off h, if_pos (by omega), if_neg (by omega)]

theorem regAt_regOffset (r : Reg) : regAt (regOffset r) = some r := by
  cases r <;> rfl

/-- The slots above the last register are reserved (R23). -/
theorem regAt_reserved (k : Nat) (h : 15 ≤ k) : regAt (8 * k) = none := by
  simp only [regAt, List.find?_eq_none, beq_iff_eq]
  intro r _
  cases r <;> simp only [regOffset] <;> omega

/-- The two results of a `CMD` write (R191). -/
theorem issueCommand_cases (w : Word) (s : State) :
    (s.busy = true ∧ issueCommand w s = { s with overrun := true }) ∨
    (s.busy = false ∧ issueCommand w s = accept w s) := by
  unfold issueCommand
  cases h : s.busy <;> simp

end Sys2Proof.Machine
end

