-- ==== Sys2Proof/Laws/Step.lean ====
section
/-! SUPPORT. Running the machine a step at a time, and what the parts of a step can do. -/

namespace Sys2Proof.Machine

theorem run_zero (s : State) : Host.Core.run Sys2Proof.core 0 s = .next s := rfl

/-- A run goes on from the state a step answers. -/
theorem run_step (n : Nat) (s t : State) (h : step s = .next t) :
    Host.Core.run Sys2Proof.core (n + 1) s = Host.Core.run Sys2Proof.core n t := by
  have h' : Sys2Proof.core.step s = .next t := h
  have e := Host.Core.run.eq_2 Sys2Proof.core s n
  rw [h'] at e
  exact e

theorem step_event (e : Event) (rest : List Event) (s : State) (h : s.events = e :: rest) :
    step s = takeEvent e { s with events := rest } := by
  rw [step, h]

theorem step_no_event (s : State) (h : s.events = []) : step s = engineRun s := by
  rw [step, h]

theorem runWord_ok (w : Word) (i : Instr) (s : State) (h : decode w = .ok i) : runWord w s = exec i s := by
  rw [runWord, h]

theorem runWord_error (w : Word) (e : DecodeError) (s : State) (h : decode w = .error e) :
    runWord w s = .next (raiseError .illegal s) := by
  rw [runWord, h]

/-- With the builder done and a command in flight, the engine runs it. -/
theorem engineRun_inflight (s : State) (L : Latch) (hb : s.builder = .done) (hL : s.inflight = some L) :
    engineRun s = runWord L.w s := by
  rw [engineRun, hb, hL]

theorem engineUnit_inflight (s : State) (L : Latch) (hb : s.builder = .done) (hL : s.inflight = some L) :
    engineUnit s = runWordUnit L.w s := by
  rw [engineUnit, hb, hL]

/-- The builder's turn (R122). -/
theorem builderTurn_cases (s : State) :
    (s.accessed = true ∧ builderTurn s = finishBuild s) ∨ (s.accessed = false ∧ builderTurn s = s) := by
  unfold builderTurn
  cases h : s.accessed <;> simp

/-- APPEND as its context check, its own checks and the outcome of its range, in that order (R242). -/
theorem exec_append (c : Nat) (s : State) (L : Latch) (h : s.inflight = some L) :
    exec (.append c) s = .next (orRaise (checkCtx c s) s (orRaise (appendArgError L) s
      (finishAppend c L (readRange L L.i (appendLength L - L.i) s) s))) := by
  rw [exec, execAppend, operandLatch_of_inflight s L h]
  simp only [appendError]
  rw [orRaise_or]

/-- The next unit of an APPEND is at least one byte and stays inside its range (R165). -/
theorem unitLength_bounds (p : Params) (L : Latch) (h : L.i < appendLength L) :
    1 ≤ unitLength p L ∧ L.i + unitLength p L ≤ appendLength L := by
  have h0 : 0 < blockSize p := by
    unfold blockSize lanes
    omega
  unfold unitLength
  split
  · rename_i h'
    exact ⟨h0, h'.2.2⟩
  · omega

end Sys2Proof.Machine
end

