-- ==== Sys2Proof/Laws/Stepper.lean ====
section
/-! SUPPORT. The laws of the one-bit step and of the table store that the results about the steppers rest on. -/

namespace Sys2Proof.Machine

theorem vectorOf_getElem {α : Type} (n : Nat) (f : Nat → α) (i : Nat) (h : i < n) : (vectorOf n f)[i] = f i := by
  simp [vectorOf]

/-- Reading the built store gives the builder's entry (R121). -/
theorem lookup_builtTables (k : Fin 8) (b : Byte) : lookup builtTables k b = tableEntry k.val b.toNat := by
  have hk : k.val < 8 := k.isLt
  simp only [lookup, builtTables, Fin.getElem_fin]
  simp only [vectorOf_getElem 8 _ k.val hk]
  exact vectorOf_getElem 256 _ b.toNat b.isLt

/-- The one-bit step is linear over GF(2). -/
theorem step1_xor (r q : Word) : step1 (r ^^^ q) = step1 r ^^^ step1 q := by
  unfold step1
  rw [BitVec.getLsbD_xor, BitVec.ushiftRight_xor_distrib]
  rcases Bool.eq_false_or_eq_true (r.getLsbD 0) with hr | hr <;>
    rcases Bool.eq_false_or_eq_true (q.getLsbD 0) with hq | hq <;>
      simp only [hr, hq, Bool.xor_true, Bool.xor_false, Bool.not_true, Bool.not_false, if_true, if_false,
        Bool.false_eq_true]
  · rw [show (r >>> 1 ^^^ poly) ^^^ (q >>> 1 ^^^ poly) = (r >>> 1 ^^^ q >>> 1) ^^^ (poly ^^^ poly) by ac_rfl]
    simp
  · ac_rfl
  · ac_rfl

theorem step1_zero : step1 0#64 = 0#64 := by decide

/-- So is any number of them. -/
theorem step1_iterate_xor (n : Nat) (r q : Word) : step1^[n] (r ^^^ q) = step1^[n] r ^^^ step1^[n] q := by
  induction n generalizing r q with
  | zero => rfl
  | succ n ih => rw [Function.iterate_succ_apply, Function.iterate_succ_apply, Function.iterate_succ_apply, step1_xor, ih]

theorem step1_iterate_zero (n : Nat) : step1^[n] 0#64 = 0#64 := by
  induction n with
  | zero => rfl
  | succ n ih => rw [Function.iterate_succ_apply, step1_zero, ih]

/-- A value whose low bit is 0 only shifts. -/
theorem step1_of_even (r : Word) (h : r.getLsbD 0 = false) : step1 r = r >>> 1 := by
  unfold step1
  rw [if_neg (by simp only [h]; decide)]

/-- `n` steps bring a value down that was shifted up by `n` without loss. -/
theorem step1_iterate_shiftLeft (n : Nat) (r : Word) (h : r.toNat * 2 ^ n < 2 ^ 64) : step1^[n] (r <<< n) = r := by
  induction n with
  | zero => simp
  | succ n ih =>
    have h' : r.toNat * 2 ^ n < 2 ^ 64 := by
      have : r.toNat * 2 ^ n ≤ r.toNat * 2 ^ (n + 1) := Nat.mul_le_mul_left _ (Nat.pow_le_pow_right (by omega) (by omega))
      omega
    rw [Function.iterate_succ_apply]
    have hs : step1 (r <<< (n + 1)) = r <<< n := by
      rw [step1_of_even _ (by simp)]
      apply BitVec.eq_of_toNat_eq
      rw [BitVec.toNat_ushiftRight, BitVec.toNat_shiftLeft, BitVec.toNat_shiftLeft, Nat.shiftLeft_eq, Nat.shiftLeft_eq,
        Nat.mod_eq_of_lt h, Nat.mod_eq_of_lt h', Nat.shiftRight_eq_div_pow, Nat.pow_succ, ← Nat.mul_assoc, Nat.pow_one,
        Nat.mul_div_cancel _ (by omega)]
    rw [hs, ih h']

/-- The scalar stepper as eight one-bit steps (R140). -/
theorem advance_eq (r : Word) (b : Byte) : advance r b = step1^[8] (r ^^^ zext64 b) := rfl

@[simp] theorem scan_nil (r : Word) : scan r [] = r := rfl

@[simp] theorem scan_cons (r : Word) (b : Byte) (d : List Byte) : scan r (b :: d) = scan (advance r b) d := rfl

@[simp] theorem laneWords_zero (d : List Byte) : laneWords 0 d = [] := rfl

@[simp] theorem laneWords_succ (n : Nat) (d : List Byte) :
    laneWords (n + 1) d = le64 (d.take 8) :: laneWords n (d.drop 8) := rfl

@[simp] theorem foldBlock_eq (T : Tables) (n : Nat) (r : Word) (d : List Byte) :
    foldBlock T n r d = advanceBlock T n r d := rfl

@[simp] theorem bulkBlock_eq (T : Tables) (n : Nat) (sel : Sel) (r : Word) (d : List Byte) :
    bulkBlock T n sel r d = advanceBlock T n r d := by
  unfold bulkBlock
  split <;> rfl

theorem bulkBlocks_zero (T : Tables) (n : Nat) (sel : Sel) (r : Word) (d : List Byte) :
    bulkBlocks T n sel 0 r d = scan r d := rfl

theorem bulkBlocks_succ (T : Tables) (n nb : Nat) (sel : Sel) (r : Word) (d : List Byte) :
    bulkBlocks T n sel (nb + 1) r d = bulkBlocks T n sel nb (advanceBlock T n r (d.take (8 * n))) (d.drop (8 * n)) := by
  rw [bulkBlocks, bulkBlock_eq]

theorem zext64_toNat (b : Byte) : (zext64 b).toNat = b.toNat := by
  have := b.isLt
  simp [zext64]
  omega

theorem le64_nil : le64 [] = 0#64 := rfl

theorem le64_cons (b : Byte) (d : List Byte) : le64 (b :: d) = zext64 b ||| (le64 d <<< 8) := rfl

end Sys2Proof.Machine
end

