-- ==== Sys2Proof/Tests/Slice0.lean ====
section
/-! SUPPORT. Small tests against the spec's vectors (95_test_vectors.md), and for every obligation with hypotheses a named
witness that meets them. Expected values are the spec's, cited by vector and row; none is the model's own answer. -/

set_option Elab.async false

namespace Sys2Proof.Tests

open Sys2Proof.Machine

/-! ### WellFormed: the one check, refused and passed (R81, R242) -/

theorem test_wellFormed_refuses_slot_256 : (Instr.append 256).wellFormed = false := by decide

theorem test_wellFormed_refuses_slot_300 : (Instr.checksum 300).wellFormed = false := by decide

theorem test_wellFormed_takes_slot_255 : (Instr.destroy 255).wellFormed = true := by decide

/-! ### Decoding: words written out from R83, R84 and R86 -/

/-- R83, every row without a CTX field. -/
theorem test_decode_plain_words :
    decode 0x0000000000000000#64 = .ok .nop ∧ decode 0x0000000000000001#64 = .ok .create ∧
    decode 0x0000000000000010#64 = .ok .stepByte ∧ decode 0x0000000000000011#64 = .ok .stepWord ∧
    decode 0x0000000000000012#64 = .ok .tblRead := by decide +kernel

/-- R83, every row with a CTX field, with `c` in bits `[15:8]`. -/
theorem test_decode_slot_words :
    decode 0x0000000000000202#64 = .ok (.append 2) ∧ decode 0x000000000000ff03#64 = .ok (.appendImm 255) ∧
    decode 0x0000000000000104#64 = .ok (.checksum 1) ∧ decode 0x0000000000000705#64 = .ok (.getreg 7) ∧
    decode 0x0000000000008006#64 = .ok (.destroy 128) := by decide +kernel

/-- R84 and V14 rows 2 to 5, 7 and 34. -/
theorem test_decode_illegal_words :
    decode 0x0000000000000100#64 = .error .ctxOnPlainCommand ∧ decode 0x0000000000000007#64 = .error .unassignedOpcode ∧
    decode 0x0000000000010000#64 = .error .reservedBits ∧ decode 0x0000000100000204#64 = .error .reservedBits ∧
    decode 0x0000000000000101#64 = .error .ctxOnPlainCommand ∧ decode 0x0000000000000110#64 = .error .ctxOnPlainCommand ∧
    decode 0x0000000000000013#64 = .error .unassignedOpcode := by decide +kernel

/-- R80: a command is one 64-bit word; lane 0 of the bus carries bits `[7:0]` (R64). -/
theorem test_decode_lanes :
    decodeLanes [0x02#8, 0x02#8, 0#8, 0#8, 0#8, 0#8, 0#8, 0#8] = .ok (.append 2) ∧
    decodeLanes [0x02#8, 0x02#8] = .error .wrongLength := by decide +kernel

theorem test_decodeTableWord : decodeTableWord 64 0x0202 = some (.append 2) ∧ decodeTableWord 16 0x0202 = some (.append 2) ∧
    decodeTableWord 64 0x0107 = none := by decide +kernel

/-- R86: `crc.append c2` is `0x0000000000000202`. -/
theorem test_encode_append_c2 : encode (.append 2) = 0x0000000000000202#64 ∧ asmText (.append 2) = "crc.append c2" := by
  decide +kernel

/-! ### The state S0 of V14, and one command from it -/

/-- V14: `NUM_CTX = 4`, `LANES = 1`, `HAS_CLMUL = 0`, `mem_fault` true at `0x2002` alone. -/
def params0 : Params :=
  { numCtxM1 := 3#8, lanesM1 := ⟨0, by decide⟩, hasClmul := false, regBaseHi := 0x40#56,
    faultAt := [{ base := 0x2002, size := 1 }], silentAt := [] }

/-- "123456789". -/
def digits : List Byte := [0x31#8, 0x32#8, 0x33#8, 0x34#8, 0x35#8, 0x36#8, 0x37#8, 0x38#8, 0x39#8]

/-- V14's host memory. The `0x00` at `0x2000` is what an unlisted address reads as. -/
def memory0 : List Host.Cell :=
  (digits.zipIdx.map fun p => (0x1000 + p.2, p.1)) ++ [(0x2001, 0x01#8), (0x2002, 0x02#8), (0x2003, 0x03#8)]
    ++ (digits.zipIdx.map fun p => (0x3003 + p.2, p.1)) ++ [(0xFFFFFFFFFFFFFFFF, 0x5a#8)]

/-- V14's S0: the builder is done, slot 0 is live with `REG[0] = INIT`, `RESULT` is all ones. -/
def s0 : State :=
  { State.reset with
    params := params0
    tables := builtTables
    tblReady := true
    busy := false
    builder := .done
    accessed := true
    result := 0xFFFFFFFFFFFFFFFF#64
    slots := State.reset.slots.setIfInBounds 0 { live := true, reg := 0xFFFFFFFFFFFFFFFF#64 }
    mem := memory0 }

/-- The word `w` in flight from `s`, with its operands. -/
def inFlight (w a0 a1 : Word) (s : State) : State := accept w { s with arg0 := a0, arg1 := a1 }

/-- The latch of that command. -/
def latch (w a0 a1 : Word) : Latch :=
  { w := w, a0 := a0, a1 := a1, sel := { bulkSel := false, scalarOnly := false }, i := 0, shadow := 0#64 }

/-- The state an outcome goes on in. -/
def nextState (o : Host.Outcome State Fault Refusal) : Option State :=
  match o with
  | .next s => some s
  | .fault _ => none
  | .refused _ => none

/-- What V14 shows of a state: `ERRCODE`, `RESULT`, `LIVE[c]`, `REG[c]`, and the number of reads. -/
def row (c : Nat) (t : State) : BitVec 8 × Word × Bool × Word × Nat :=
  (errCodeBits t.errcode, t.result, (slotAt c t).live, (slotAt c t).reg, t.portReads.length)

/-- One step that runs the word `w` from `s`: V14's columns after it. -/
def runRow (c : Nat) (s : State) (w a0 a1 : Word) : Option (BitVec 8 × Word × Bool × Word × Nat) :=
  (nextState (step (inFlight w a0 a1 s))).map (row c)

/-- V14 rows 1 and 2. -/
theorem test_nop : runRow 0 s0 0x00#64 0#64 0#64 =
    some (0x00#8, 0xFFFFFFFFFFFFFFFF#64, true, 0xFFFFFFFFFFFFFFFF#64, 0) := by decide +kernel

theorem test_illegal : runRow 0 s0 0x0100#64 0#64 0#64 =
    some (0x01#8, 0xFFFFFFFFFFFFFFFF#64, true, 0xFFFFFFFFFFFFFFFF#64, 0) := by decide +kernel

/-- V14 row 6, and row 31 with `NUM_CTX = 1`. -/
theorem test_create : runRow 1 s0 0x01#64 0#64 0#64 =
    some (0x00#8, 0x1#64, true, 0xFFFFFFFFFFFFFFFF#64, 0) := by decide +kernel

theorem test_create_no_slot :
    runRow 0 { s0 with params := { params0 with numCtxM1 := 0#8 } } 0x01#64 0#64 0#64 =
    some (0x04#8, 0xFFFFFFFFFFFFFFFF#64, true, 0xFFFFFFFFFFFFFFFF#64, 0) := by decide +kernel

/-- V14 rows 13 and 21. -/
theorem test_append_digits : runRow 0 s0 0x02#64 0x1000#64 9#64 =
    some (0x00#8, 0xFFFFFFFFFFFFFFFF#64, true, 0x5174eb79f5866777#64, 9) := by decide +kernel

theorem test_append_bus : runRow 0 s0 0x02#64 0x2000#64 4#64 =
    some (0x08#8, 0xFFFFFFFFFFFFFFFF#64, true, 0xFFFFFFFFFFFFFFFF#64, 3) := by decide +kernel

/-- V14 rows 26 and 24. -/
theorem test_appendImm_one_byte : runRow 0 s0 0x03#64 0xaaaaaaaaaaaaaa31#64 1#64 =
    some (0x00#8, 0xFFFFFFFFFFFFFFFF#64, true, 0xdc6a5e3cb9e4412d#64, 0) := by decide +kernel

theorem test_appendImm_count_9 : runRow 0 s0 0x03#64 0x3837363534333231#64 9#64 =
    some (0x05#8, 0xFFFFFFFFFFFFFFFF#64, true, 0xFFFFFFFFFFFFFFFF#64, 0) := by decide +kernel

/-- V14 rows 8 and 12. -/
theorem test_checksum_new_slot : runRow 0 s0 0x04#64 0#64 0#64 =
    some (0x00#8, 0#64, true, 0xFFFFFFFFFFFFFFFF#64, 0) := by decide +kernel

theorem test_checksum_bad_ctx : runRow 0 s0 0xff04#64 0#64 0#64 =
    some (0x02#8, 0xFFFFFFFFFFFFFFFF#64, true, 0xFFFFFFFFFFFFFFFF#64, 0) := by decide +kernel

/-- V12, "123456789" in the slot: GETREG shows the register. -/
theorem test_getreg : runRow 0 { s0 with slots := s0.slots.setIfInBounds 0 { live := true, reg := 0x5174eb79f5866777#64 } }
    0x05#64 0#64 0#64 = some (0x00#8, 0x5174eb79f5866777#64, true, 0x5174eb79f5866777#64, 0) := by decide +kernel

/-- V14 row 10's error, by GETREG. -/
theorem test_getreg_dead_ctx : runRow 0 s0 0x0105#64 0#64 0#64 =
    some (0x03#8, 0xFFFFFFFFFFFFFFFF#64, true, 0xFFFFFFFFFFFFFFFF#64, 0) := by decide +kernel

/-- V14 rows 27 and 28. -/
theorem test_destroy : runRow 0 s0 0x06#64 0#64 0#64 =
    some (0x00#8, 0xFFFFFFFFFFFFFFFF#64, false, 0#64, 0) := by decide +kernel

theorem test_destroy_twice :
    runRow 0 { s0 with slots := State.reset.slots } 0x06#64 0#64 0#64 =
    some (0x03#8, 0xFFFFFFFFFFFFFFFF#64, false, 0#64, 0) := by decide +kernel

/-- V14 rows 32 and 33. -/
theorem test_stepByte : runRow 0 s0 0x10#64 0xFFFFFFFFFFFFFFFF#64 0x31#64 =
    some (0x00#8, 0xdc6a5e3cb9e4412d#64, true, 0xFFFFFFFFFFFFFFFF#64, 0) := by decide +kernel

theorem test_stepByte_bad_arg : runRow 0 s0 0x10#64 0xFFFFFFFFFFFFFFFF#64 0x100#64 =
    some (0x05#8, 0xFFFFFFFFFFFFFFFF#64, true, 0xFFFFFFFFFFFFFFFF#64, 0) := by decide +kernel

/-- V14 row 35 and V11's last row. -/
theorem test_stepWord : runRow 0 s0 0x11#64 0xFFFFFFFFFFFFFFFF#64 0x3837363534333231#64 =
    some (0x00#8, 0x132f6f673d376b6b#64, true, 0xFFFFFFFFFFFFFFFF#64, 0) := by decide +kernel

theorem test_stepWord_zero_lane : runRow 0 s0 0x11#64 0x5174eb79f5866777#64 0#64 =
    some (0x00#8, 0x2fe395662c31d4b6#64, true, 0xFFFFFFFFFFFFFFFF#64, 0) := by decide +kernel

/-- V14 rows 38 and 40. -/
theorem test_tblRead : runRow 0 s0 0x12#64 0#64 1#64 =
    some (0x00#8, 0x21e9761e252621ac#64, true, 0xFFFFFFFFFFFFFFFF#64, 0) := by decide +kernel

theorem test_tblRead_bad_arg : runRow 0 s0 0x12#64 0#64 0x100#64 =
    some (0x05#8, 0xFFFFFFFFFFFFFFFF#64, true, 0xFFFFFFFFFFFFFFFF#64, 0) := by decide +kernel

/-! ### The steppers -/

/-- V10, three rows. -/
theorem test_advance : advance 0x0123456789abcdef#64 0x5a#8 = 0xa540a49bfa74ed0d#64 ∧
    advance 0#64 0xff#8 = 0x2ada5047efec8728#64 ∧ advance 0x9a6c9329ac4bc9b5#64 0#8 = 0xa5dbeb4db4510d09#64 := by
  decide +kernel

/-- V5, n = 17 with `LANES = 2`: one block through the bulk stepper and one byte through the scalar stepper. -/
theorem test_appendBytes_lanes_2 :
    appendBytes builtTables 2 { bulkSel := true, scalarOnly := false } 0xFFFFFFFFFFFFFFFF#64
      ((List.range 17).map fun i => BitVec.ofNat 8 (0x9d * i + 0x3b)) = 0xb202eb46d518dae0#64 := by decide +kernel

/-- R107: the carry-less product of `x + 1` with itself is `x^2 + 1`; and the top bit of the product. -/
theorem test_clmul : clmul 3#64 3#64 = 5#128 ∧ (clmul 0x8000000000000000#64 0x8000000000000000#64).getLsbD 126 = true := by
  decide +kernel

/-! ### The register block -/

/-- The address of an offset of the block of `params0`. -/
def at0 (off : Nat) : Word := regBase params0 + BitVec.ofNat 64 off

/-- The answer on the bus to one step that takes the event. -/
def answer (e : Event) (s : State) : Option (Option HostReply) :=
  (nextState (step { s with events := [e] })).map (·.reply)

/-- Register-level vectors, row 5: `CAP`, `P_POLY` and `STATUS` after the build. -/
theorem test_register_reads :
    answer (.hostRead (at0 0x10) 8) s0 = some (some (.data 0x0000000000010803#64)) ∧
    answer (.hostRead (at0 0x20) 8) s0 = some (some (.data 0x9a6c9329ac4bc9b5#64)) ∧
    answer (.hostRead (at0 0x50) 8) s0 = some (some (.data 0x0000000000000002#64)) ∧
    answer (.hostRead (at0 0xf8) 8) s0 = some (some (.data 0#64)) := by decide +kernel

/-- Register-level vectors, row 6. -/
theorem test_cap_256_slots : capWord { params0 with numCtxM1 := 255#8, lanesM1 := ⟨15, by decide⟩, hasClmul := true } =
    0x00000000011008ff#64 := by decide +kernel

/-- Register-level vectors, row 7. -/
theorem test_ctrl_write : ctrlWord (ctrlWritten params0 0xffffffffffffffff#64) = 0x2#64 ∧
    ctrlWord (ctrlWritten { params0 with hasClmul := true } 0xffffffffffffffff#64) = 0x3#64 := by decide +kernel

/-- Register-level vectors, row 10. -/
theorem test_misaligned_access : answer (.hostRead (at0 0x50) 4) s0 = some (some .busError) ∧
    answer (.hostRead (at0 0x54) 8) s0 = some (some .busError) := by decide +kernel

/-- R191: a `CMD` write while busy sets `OVERRUN` and leaves the command in flight. -/
theorem test_overrun :
    (nextState (step { inFlight 0x04#64 0#64 0#64 s0 with events := [.hostWrite (at0 0x58) 8 0x01#64] })).map
      (fun t => (t.overrun, t.inflight.map (·.w))) = some (true, some 0x04#64) := by decide +kernel

/-- The events of `withFetchWord` run the word as the first command after reset: STEP_BYTE of `ARG0 = ARG1 = 0` (V10 row 1). -/
theorem test_withFetchWord_after_reset :
    (nextState (step (State.reset.withFetchWord 64 0x10))).map (fun t => (t.result, t.errcode, t.busy)) =
      some (0#64, .ok, false) := by decide +kernel

/-! ### Host memory -/

theorem test_reset_memory_wf : Memory.wf State.reset.mem = true := by decide

theorem test_memory0_wf : Memory.wf memory0 = true := by decide +kernel

theorem test_store_of_blank_removes_entry :
    Memory.write [(5, 1#8), (7, 2#8)] 5 0#8 = [(7, 2#8)] ∧ Memory.write [(7, 2#8)] 5 1#8 = [(5, 1#8), (7, 2#8)] := by decide

/-! ### Host programs (R88), in the atomic view -/

/-- `crc.err` on a host whose engine is in S0 leaves `STATUS` in the variable (R88). -/
theorem test_crc_err :
    (match hostStep (crcErr 0) { vars := vectorOf 32 fun _ => 0#64, line := 0, engine := s0 } with
      | .next k => some (k.vars[0], k.line)
      | .fault _ => none
      | .refused _ => none) = some (0x2#64, 1) := by decide +kernel

/-! ### Witnesses: for every obligation with hypotheses, a state and operands that meet all of them -/

theorem slotAt_reset (c : Nat) : slotAt c State.reset = freeSlot := by
  simp only [slotAt, State.reset]
  by_cases h : c < 256
  · rw [Vector.getElem?_eq_getElem h, vectorOf_getElem]
    rfl
  · rw [Vector.getElem?_eq_none (by omega)]
    rfl

/-- In S0 no slot but slot 0 is live. -/
theorem slotAt_s0 (c : Nat) (h : c ≠ 0) : slotAt c s0 = freeSlot := by
  have := slotAt_applyStaged State.reset.slots 0 c { live := true, reg := 0xFFFFFFFFFFFFFFFF#64 } (by omega)
  rw [if_neg h] at this
  exact this.trans (slotAt_reset c)

/-- The invariant holds in a state with a command just accepted from S0. -/
theorem inFlight_inv (w a0 a1 : Word) (es : List Event) : EngineInv { inFlight w a0 a1 s0 with events := es } where
  busy_iff := ⟨fun _ => .inl rfl, fun _ => rfl⟩
  ready_iff := ⟨fun _ => rfl, fun _ => rfl⟩
  tables_built := fun _ => rfl
  running_idle := fun h => by cases h
  accessed_first := fun _ => rfl
  ctrl_legal := fun h => by cases h
  sel_legal := fun L h => by cases h; exact fun h => by cases h
  slots_exist := fun c h => by
    have h4 : 4 ≤ c := h
    exact congrArg Slot.live (slotAt_s0 c (by omega))
  mem_wf := test_memory0_wf
  window_closed := fun h => by cases h
  progress_bounded := fun L h => by cases h; exact Nat.zero_le _
  reads_made := fun L h => by cases h; rfl
  only_append := fun L h => by cases h; exact fun h => absurd rfl h

theorem idle_s0 : Idle s0 := ⟨rfl, rfl, rfl, rfl⟩

theorem live_s0 : SlotLive 0 s0 := by unfold SlotLive; decide +kernel

theorem answered (L : Latch) (s : State) (h : s.params.silentAt = []) : RangeAnswered s L := by
  intro j _
  rw [memSilent, h]
  rfl

theorem witness_EncodedCommandsDecodeBack : (Instr.append 255).wellFormed = true := by decide

theorem witness_DecodedWordsEncodeBack : decode 0x000000000000ff02#64 = .ok (.append 255) := by decide +kernel

theorem witness_IllegalWordsAreRefused : ∃ (s : State) (L : Latch) (e : DecodeError), s.events = [.engineRun] ∧
    s.builder = .done ∧ s.inflight = some L ∧ decode L.w = .error e :=
  ⟨{ inFlight 0x13#64 0#64 0#64 s0 with events := [.engineRun] }, latch 0x13#64 0#64 0#64, .unassignedOpcode, rfl, rfl, rfl,
    by decide +kernel⟩

theorem witness_StepRunsTheDecodedCommand : ∃ (s : State) (L : Latch) (i : Instr) (rest : List Event),
    s.builder = .done ∧ s.inflight = some L ∧ decode L.w = .ok i ∧ s.events = .engineRun :: rest :=
  ⟨{ inFlight 0x04#64 0#64 0#64 s0 with events := [.engineRun] }, latch 0x04#64 0#64 0#64, .checksum 0, [], rfl, rfl,
    by decide +kernel, rfl⟩

theorem witness_StepRuns_no_event : ∃ (s : State) (L : Latch) (i : Instr),
    s.builder = .done ∧ s.inflight = some L ∧ decode L.w = .ok i ∧ s.events = [] :=
  ⟨inFlight 0x04#64 0#64 0#64 s0, latch 0x04#64 0#64 0#64, .checksum 0, rfl, rfl, by decide +kernel, rfl⟩

theorem witness_StepRuns_last_unit : ∃ (s : State) (L : Latch) (i : Instr) (rest : List Event),
    s.builder = .done ∧ s.inflight = some L ∧ decode L.w = .ok i ∧ s.events = .engineUnit :: rest ∧
      commandUnit i { s with events := rest } = none :=
  ⟨{ inFlight 0x04#64 0#64 0#64 s0 with events := [.engineUnit] }, latch 0x04#64 0#64 0#64, .checksum 0, [], rfl, rfl,
    by decide +kernel, rfl, rfl⟩

theorem witness_StepRuns_unit : ∃ (s : State) (L : Latch) (i : Instr) (rest : List Event),
    s.builder = .done ∧ s.inflight = some L ∧ decode L.w = .ok i ∧ s.events = .engineUnit :: rest ∧
      (commandUnit i { s with events := rest }).isSome = true :=
  ⟨{ inFlight 0x02#64 0x1000#64 9#64 s0 with events := [.engineUnit] }, latch 0x02#64 0x1000#64 9#64, .append 0, [],
    rfl, rfl, by decide +kernel, rfl, by decide +kernel⟩

theorem witness_FetchedWordRunsNext : decode 0x0000000000000012#64 = .ok .tblRead := by decide +kernel

/-- The inner clauses of `EncodedPlain` and `EncodedWithSlot`: a word with a bit too many. -/
theorem witness_encoding_clauses :
    (opcField 0x0000000000000100#64 = 0x00#8 ∧ (0x0000000000000100#64 : Word) ≠ zextOpc 0x00#8) ∧
    (opcField 0x0001000000000002#64 = 0x02#8 ∧ rsvField 0x0001000000000002#64 ≠ 0#48) := by decide +kernel

/-- The inner clauses of `RefusesDeadSlots`, at the first slot that does not exist and at the last that does. -/
theorem witness_RefusesDeadSlots :
    numCtx s0.params ≤ 4 ∧ 3 < numCtx s0.params ∧ (slotAt 3 s0).live = false := by decide +kernel

theorem witness_CreateTakesTheLowestFreeSlot :
    1 < numCtx s0.params ∧ (slotAt 1 s0).live = false ∧ ∀ j, j < 1 → (slotAt j s0).live = true := by decide +kernel

theorem witness_Create_no_slot : ∃ s : State, ∀ c, c < numCtx s.params → (slotAt c s).live = true :=
  ⟨{ s0 with params := { params0 with numCtxM1 := 0#8 } }, by decide +kernel⟩

/-- The range of one byte that ends at the top of the address space (V14 row 18). -/
theorem witness_AppendScansItsRange : ∃ (s : State) (L : Latch) (c : Nat), s.inflight = some L ∧ L.i = 0 ∧
    s.tables = builtTables ∧ s.window = [] ∧ SlotLive c s ∧ ¬(L.a0 = 0#64 ∧ L.a1 ≠ 0#64) ∧
    L.a0.toNat + L.a1.toNat ≤ 2 ^ 64 ∧ RangeAnswered s L ∧ RangeReadable s L := by
  refine ⟨inFlight 0x02#64 0xFFFFFFFFFFFFFFFF#64 1#64 s0, latch 0x02#64 0xFFFFFFFFFFFFFFFF#64 1#64, 0, rfl, rfl, rfl, rfl,
    live_s0, by decide, by decide, answered _ _ rfl, ?_⟩
  unfold RangeReadable
  decide +kernel

/-- An empty range at address 0 (V14 row 16) meets them too. -/
theorem witness_AppendScansItsRange_empty : ∃ (s : State) (L : Latch) (c : Nat), s.inflight = some L ∧ L.i = 0 ∧
    s.tables = builtTables ∧ s.window = [] ∧ SlotLive c s ∧ ¬(L.a0 = 0#64 ∧ L.a1 ≠ 0#64) ∧
    L.a0.toNat + L.a1.toNat ≤ 2 ^ 64 ∧ RangeAnswered s L ∧ RangeReadable s L := by
  refine ⟨inFlight 0x02#64 0#64 0#64 s0, latch 0x02#64 0#64 0#64, 0, rfl, rfl, rfl, rfl,
    live_s0, by decide, by decide, answered _ _ rfl, ?_⟩
  unfold RangeReadable
  decide +kernel

theorem witness_Append_null_pointer : ∃ (s : State) (L : Latch) (c : Nat), s.inflight = some L ∧ SlotLive c s ∧
    L.a0 = 0#64 ∧ L.a1 ≠ 0#64 :=
  ⟨inFlight 0x02#64 0#64 1#64 s0, latch 0x02#64 0#64 1#64, 0, rfl, live_s0, rfl, by decide⟩

theorem witness_Append_range : ∃ (s : State) (L : Latch) (c : Nat), s.inflight = some L ∧ SlotLive c s ∧
    L.a0.toNat + L.a1.toNat > 2 ^ 64 :=
  ⟨inFlight 0x02#64 0xFFFFFFFFFFFFFFFF#64 2#64 s0, latch 0x02#64 0xFFFFFFFFFFFFFFFF#64 2#64, 0, rfl, live_s0, by decide⟩

/-- V14 row 21. -/
theorem witness_AppendBusFaultCommitsNothing : ∃ (s : State) (L : Latch) (c : Nat), s.inflight = some L ∧ L.i = 0 ∧
    s.portReads = [] ∧ SlotLive c s ∧ ¬(L.a0 = 0#64 ∧ L.a1 ≠ 0#64) ∧ L.a0.toNat + L.a1.toNat ≤ 2 ^ 64 ∧
    RangeAnswered s L ∧ ¬RangeReadable s L := by
  refine ⟨inFlight 0x02#64 0x2000#64 4#64 s0, latch 0x02#64 0x2000#64 4#64, 0, rfl, rfl, rfl, live_s0, by decide, by decide,
    answered _ _ rfl, ?_⟩
  unfold RangeReadable
  decide +kernel

theorem witness_AppendImmScansItsBytes : ∃ (s : State) (L : Latch) (c : Nat), s.inflight = some L ∧
    s.tables = builtTables ∧ SlotLive c s ∧ L.a1.toNat ≤ 8 :=
  ⟨inFlight 0x03#64 0x3837363534333231#64 8#64 s0, latch 0x03#64 0x3837363534333231#64 8#64, 0, rfl, rfl, live_s0, by decide⟩

theorem witness_AppendImm_bad_arg : ∃ (s : State) (L : Latch) (c : Nat), s.inflight = some L ∧ SlotLive c s ∧
    L.a1.toNat > 8 :=
  ⟨inFlight 0x03#64 0#64 9#64 s0, latch 0x03#64 0#64 9#64, 0, rfl, live_s0, by decide⟩

/-- For CHECKSUM, GETREG and DESTROY: a live slot. -/
theorem witness_live_slot : SlotLive 0 s0 := live_s0

theorem witness_StepByteAdvancesOneByte : ∃ (s : State) (L : Latch), s.inflight = some L ∧ L.a1.toNat ≤ 0xFF :=
  ⟨inFlight 0x10#64 0#64 0xFF#64 s0, latch 0x10#64 0#64 0xFF#64, rfl, by decide⟩

theorem witness_StepByte_bad_arg : ∃ (s : State) (L : Latch), s.inflight = some L ∧ L.a1.toNat > 0xFF :=
  ⟨inFlight 0x10#64 0#64 0x100#64 s0, latch 0x10#64 0#64 0x100#64, rfl, by decide⟩

theorem witness_StepWordStepsOneLane : ∃ (s : State) (L : Latch), s.inflight = some L ∧ s.tables = builtTables :=
  ⟨inFlight 0x11#64 0#64 1#64 s0, latch 0x11#64 0#64 1#64, rfl, rfl⟩

theorem witness_TblReadReadsOneEntry : ∃ (s : State) (L : Latch) (k : Fin 8) (b : Byte), s.inflight = some L ∧
    s.tables = builtTables ∧ L.a0.toNat = k.val ∧ L.a1.toNat = b.toNat :=
  ⟨inFlight 0x12#64 7#64 255#64 s0, latch 0x12#64 7#64 255#64, 7, 255#8, rfl, rfl, by decide, by decide⟩

theorem witness_TblRead_bad_table : ∃ (s : State) (L : Latch), s.inflight = some L ∧
    (L.a0.toNat > 7 ∨ L.a1.toNat > 255) :=
  ⟨inFlight 0x12#64 8#64 0#64 s0, latch 0x12#64 8#64 0#64, rfl, by decide⟩

theorem witness_TblRead_bad_index : ∃ (s : State) (L : Latch), s.inflight = some L ∧
    (L.a0.toNat > 7 ∨ L.a1.toNat > 255) :=
  ⟨inFlight 0x12#64 0#64 256#64 s0, latch 0x12#64 0#64 256#64, rfl, by decide⟩

theorem witness_Nop_dropped : ∃ (s : State) (rest : List Event), s.busy = true ∧
    s.events = .hostWrite (regBase s.params + 0x58#64) 8 0#64 :: rest :=
  ⟨{ inFlight 0x04#64 0#64 0#64 s0 with events := [.hostWrite (regBase params0 + 0x58#64) 8 0#64] }, [], rfl, rfl⟩

/-- A state with the builder running and a write of `CMD` before it, with the parameters `params0`, has the invariant. -/
theorem building_inv : EngineInv
    { State.reset with params := params0, events := [.hostWrite (regBase params0 + 0x58#64) 8 0x12#64] } where
  busy_iff := ⟨fun _ => .inr rfl, fun _ => rfl⟩
  ready_iff := ⟨fun h => (nomatch (h : false = true)), fun h => (nomatch (h : BuilderProgress.running = .done))⟩
  tables_built := fun h => nomatch (h : BuilderProgress.running = .done)
  running_idle := fun _ => rfl
  accessed_first := fun h => nomatch (h : BuilderProgress.running = .done)
  ctrl_legal := fun h => nomatch (h : false = true)
  sel_legal := fun L h => nomatch (h : (none : Option Latch) = some L)
  slots_exist := fun c _ => congrArg Slot.live (slotAt_reset c)
  mem_wf := test_reset_memory_wf
  window_closed := fun _ => rfl
  progress_bounded := fun L h => nomatch (h : (none : Option Latch) = some L)
  reads_made := fun L h => nomatch (h : (none : Option Latch) = some L)
  only_append := fun L h => nomatch (h : (none : Option Latch) = some L)

theorem witness_TblRead_dropped : ∃ (s : State) (rest : List Event), EngineInv s ∧ s.tblReady = false ∧
    s.events = .hostWrite (regBase s.params + 0x58#64) 8 0x12#64 :: rest :=
  ⟨{ State.reset with params := params0, events := [.hostWrite (regBase params0 + 0x58#64) 8 0x12#64] }, [],
    building_inv, rfl, rfl⟩

theorem witness_EveryContextCommandChecksItsSlot :
    (Instr.append 4).slot? = some 4 ∧ numCtx s0.params ≤ 4 ∧
    (Instr.append 3).slot? = some 3 ∧ 3 < numCtx s0.params ∧ (slotAt 3 s0).live = false := by decide +kernel

theorem witness_ErrorsChangeOnlyTheStatus : ∃ (i : Instr) (s t : State) (L : Latch), s.inflight = some L ∧
    exec i s = .next t ∧ t.inflight = none ∧ t.errcode ≠ .ok := by
  refine ⟨.stepByte, inFlight 0x10#64 0#64 0x100#64 s0, raiseError .badArg (inFlight 0x10#64 0#64 0x100#64 s0),
    latch 0x10#64 0#64 0x100#64, rfl, ?_, rfl, by decide⟩
  rw [exec, execStepByte, operandLatch_of_inflight _ (latch 0x10#64 0#64 0x100#64) rfl]
  rfl

theorem witness_FirstErrorInOrderWins : ∃ (s : State) (L : Latch), s.inflight = some L ∧ L.i = 0 ∧ RangeAnswered s L :=
  ⟨inFlight 0x0102#64 0#64 5#64 s0, latch 0x0102#64 0#64 5#64, rfl, rfl, answered _ _ rfl⟩

theorem witness_CommandsChangeOnlyTheirOwnState : ∃ (i : Instr) (s t : State) (x : Nat), exec i s = .next t ∧
    i.slot? ≠ some x ∧ (i = .create → leastFree s ≠ some x) :=
  ⟨.create, s0, _, 3, rfl, by decide, fun _ => by decide +kernel⟩

theorem witness_small_step_in_flight : ∃ (i : Instr) (s t : State) (L M : Latch), s.inflight = some L ∧
    commandUnit i s = some t ∧ t.inflight = some M := by
  have h : ((commandUnit (.append 0) (inFlight 0x02#64 0x1000#64 9#64 s0)).bind State.inflight).isSome = true := by
    decide +kernel
  obtain ⟨M, hM⟩ := Option.isSome_iff_exists.1 h
  obtain ⟨t, ht, hm⟩ := Option.bind_eq_some_iff.1 hM
  exact ⟨_, _, t, latch 0x02#64 0x1000#64 9#64, M, rfl, ht, hm⟩

theorem witness_small_step_bus : ∃ (i : Instr) (s t : State) (L : Latch), s.inflight = some L ∧
    commandUnit i s = some t ∧ t.inflight = none := by
  have h : (commandUnit (.append 0) (inFlight 0x02#64 0x2002#64 1#64 s0)).map State.inflight = some none := by
    decide +kernel
  obtain ⟨t, ht, hm⟩ := Option.map_eq_some_iff.1 h
  exact ⟨_, _, t, latch 0x02#64 0x2002#64 1#64, rfl, ht, hm⟩

theorem witness_ResultIsWrittenOnlyByValueCommands : ∃ (i : Instr) (s t : State), exec i s = .next t ∧
    (t.errcode ≠ .ok ∨ i = .nop ∨ (∃ c, i = .append c) ∨ (∃ c, i = .appendImm c) ∨ (∃ c, i = .destroy c)) :=
  ⟨.destroy 0, s0, _, rfl, .inr (.inr (.inr (.inr ⟨0, rfl⟩)))⟩

theorem witness_SlotsAreIsolated : ∃ (i : Instr) (c : Nat) (s : State) (v : Vector Slot 256), i.slot? = some c ∧
    v[c]? = s.slots[c]? ∧ v[1]? ≠ s.slots[1]? :=
  ⟨.checksum 0, 0, s0, s0.slots.setIfInBounds 1 { live := true, reg := 5#64 }, rfl, by decide +kernel, by decide +kernel⟩

theorem witness_SlotsAreIsolated_no_slot : Instr.tblRead.slot? = none ∧ Instr.tblRead ≠ .create := by decide

theorem witness_FirstError_slot_only : Instr.destroy 0 ∈ [.checksum 0, .getreg 0, .destroy 0] := by decide

/-- `ReadsAs`, at the first and the last offset of the block. -/
theorem witness_ReadsAs : ∃ (s : State) (rest : List Event),
    s.events = .hostRead (regBase s.params + BitVec.ofNat 64 0) 8 :: rest :=
  ⟨{ s0 with events := [.hostRead (regBase params0 + BitVec.ofNat 64 0) 8] }, [], rfl⟩

theorem witness_ReadsAs_reserved : ∃ (s : State) (rest : List Event) (k : Nat), 15 ≤ k ∧ k < 32 ∧
    s.events = .hostRead (regBase s.params + BitVec.ofNat 64 (8 * k)) 8 :: rest :=
  ⟨{ s0 with events := [.hostRead (regBase params0 + BitVec.ofNat 64 (8 * 31)) 8] }, [], 31, by decide, by decide, rfl⟩

theorem witness_WritesAs : ∃ (s : State) (v : Word) (rest : List Event),
    s.events = .hostWrite (regBase s.params + BitVec.ofNat 64 0x48) 8 v :: rest :=
  ⟨{ s0 with events := [.hostWrite (regBase params0 + BitVec.ofNat 64 0x48) 8 0xFFFFFFFFFFFFFFFF#64] }, _, [], rfl⟩

theorem witness_WritesAs_reserved : ∃ (s : State) (v : Word) (rest : List Event) (k : Nat), 15 ≤ k ∧ k < 32 ∧
    s.events = .hostWrite (regBase s.params + BitVec.ofNat 64 (8 * k)) 8 v :: rest :=
  ⟨{ s0 with events := [.hostWrite (regBase params0 + BitVec.ofNat 64 (8 * 15)) 8 1#64] }, 1#64, [], 15, by decide, by decide,
    rfl⟩

theorem witness_CmdWrites_dropped : ∃ (s : State) (v : Word) (rest : List Event),
    s.events = .hostWrite (regBase s.params + 0x58#64) 8 v :: rest ∧ s.busy = true :=
  ⟨{ inFlight 0x04#64 0#64 0#64 s0 with events := [.hostWrite (regBase params0 + 0x58#64) 8 1#64] }, 1#64, [], rfl, rfl⟩

theorem witness_CmdWrites_accepted : ∃ (s : State) (v : Word) (rest : List Event),
    s.events = .hostWrite (regBase s.params + 0x58#64) 8 v :: rest ∧ s.busy = false :=
  ⟨{ s0 with events := [.hostWrite (regBase params0 + 0x58#64) 8 1#64] }, 1#64, [], rfl, rfl⟩

theorem witness_MisalignedHostAccesses_read : ∃ (s : State) (rest : List Event) (off n : Nat), off < 256 ∧ 0 < n ∧
    ¬(n = 8 ∧ off % 8 = 0) ∧ off + n ≤ 256 ∧
    s.events = .hostRead (regBase s.params + BitVec.ofNat 64 off) n :: rest :=
  ⟨{ s0 with events := [.hostRead (regBase params0 + BitVec.ofNat 64 0x50) 4] }, [], 0x50, 4, by decide, by decide, by decide,
    by decide, rfl⟩

theorem witness_MisalignedHostAccesses_write : ∃ (s : State) (rest : List Event) (off n : Nat) (v : Word), off < 256 ∧ 0 < n ∧
    ¬(n = 8 ∧ off % 8 = 0) ∧ off + n ≤ 256 ∧
    s.events = .hostWrite (regBase s.params + BitVec.ofNat 64 off) n v :: rest :=
  ⟨{ s0 with events := [.hostWrite (regBase params0 + BitVec.ofNat 64 255) 1 7#64] }, [], 255, 1, 7#64, by decide, by decide,
    by decide, by decide, rfl⟩

theorem witness_OperandWrites : ∃ (s : State) (L : Latch), s.inflight = some L :=
  ⟨inFlight 0x02#64 0x1000#64 9#64 s0, latch 0x02#64 0x1000#64 9#64, rfl⟩

theorem witness_ResetLeavesTheSpecValues : ∃ (s : State) (rest : List Event), s.events = .reset :: rest ∧
    s.inflight.isSome = true :=
  ⟨{ inFlight 0x02#64 0x1000#64 9#64 s0 with events := [.reset] }, [], rfl, rfl⟩

theorem witness_Builder_waits : ∃ (s : State) (rest : List Event), s.builder = .running ∧ s.accessed = false ∧
    (s.events = [] ∨ s.events = .engineRun :: rest ∨ s.events = .engineUnit :: rest) :=
  ⟨State.reset, [], rfl, rfl, .inl rfl⟩

theorem witness_Builder_waits_event : ∃ (s : State) (rest : List Event), s.builder = .running ∧ s.accessed = false ∧
    (s.events = .engineRun :: rest ∨ s.events = .engineUnit :: rest) :=
  ⟨{ State.reset with events := [.engineUnit] }, [], rfl, rfl, .inr rfl⟩

theorem witness_Builder_finishes : ∃ (s : State) (rest : List Event),
    (s.events = [] ∨ s.events = .engineRun :: rest ∨ s.events = .engineUnit :: rest) ∧
      s.builder = .running ∧ s.accessed = true :=
  ⟨{ State.reset with accessed := true }, [], .inl rfl, rfl, rfl⟩

theorem witness_Builder_once : ∃ s t : State, s.builder = .done ∧ (∀ rest, s.events ≠ .reset :: rest) ∧ step s = .next t :=
  ⟨{ s0 with events := [.engineRun] }, _, rfl, fun _ h => (by cases h), rfl⟩

theorem witness_ChecksumHasTheClosedForm : ∃ (d : List Byte) (s : State) (c : Nat), SlotLive c s ∧
    (slotAt c s).reg = scan 0xFFFFFFFFFFFFFFFF#64 d :=
  ⟨[], s0, 0, live_s0, by decide +kernel⟩

theorem witness_ScanIsLinear : ([0x31#8, 0x32#8] : List Byte).length = [0xff#8, 0x00#8].length := rfl

theorem witness_TableEntriesObeyTheirLaws : (7 : Fin 8).val = (6 : Fin 8).val + 1 := rfl

theorem witness_BulkStepperEqualsScalarStepper : (zeros 8).length = 8 * 1 := rfl

theorem witness_AppendPathsAgreeWithScan : 1 ≤ lanes params0 := by decide

theorem witness_AppendPaths_commands : ∃ (s : State) (L : Latch), s.inflight = some L ∧ s.tables = builtTables :=
  ⟨inFlight 0x02#64 0x1000#64 9#64 s0, latch 0x02#64 0x1000#64 9#64, rfl, rfl⟩

theorem witness_CarrylessProductBits : 126 ≤ 126 := le_refl _

theorem witness_StepKeepsTheInvariant : ∃ s t : State, EngineInv s ∧ step s = .next t :=
  ⟨{ inFlight 0x02#64 0x1000#64 9#64 s0 with events := [.memStore 0x1008#64 0x55#8] }, _, inFlight_inv _ _ _ _, rfl⟩

/-- For SmallSteps, EveryAcceptedCommandCompletes and SimultaneousWriteEitherWay: an APPEND of nine bytes in flight. -/
theorem witness_command_in_flight : ∃ (s : State) (L : Latch), EngineInv s ∧ s.inflight = some L ∧ ReadsAnswered s L ∧
    decode L.w = .ok (.append 0) :=
  ⟨{ inFlight 0x02#64 0x1000#64 9#64 s0 with events := [] }, latch 0x02#64 0x1000#64 9#64, inFlight_inv _ _ _ _, rfl,
    fun _ _ => answered _ _ rfl, by decide +kernel⟩

/-- `params0` on a platform that never answers a read of `0x5002`. -/
def paramsSilent : Params := { params0 with silentAt := [{ base := 0x5002, size := 1 }] }

/-- A command other than APPEND needs no answer, though its operands span a silent address. -/
theorem witness_command_without_reads : ∃ (s : State) (L : Latch), EngineInv s ∧ s.inflight = some L ∧
    ReadsAnswered s L ∧ decode L.w = .ok .stepWord ∧ ¬RangeAnswered s L :=
  ⟨{ inFlight 0x11#64 0x5000#64 9#64 s0 with params := paramsSilent }, latch 0x11#64 0x5000#64 9#64, by
    obtain ⟨a, b, c, d, e, f, g, h, i, j, k, l, m⟩ := inFlight_inv 0x11#64 0x5000#64 9#64 []
    exact ⟨a, b, c, d, e, f, g, h, i, j, k, l, m⟩, rfl,
    fun _ h => absurd ((show decode 0x11#64 = .ok .stepWord by decide +kernel).symm.trans h) (by simp),
    by decide +kernel, fun h => absurd (h 2 (by decide)) (by decide +kernel)⟩

/-- V14 row 21's range, on a platform that never answers at `0x2002`. -/
theorem witness_AnUnansweredRead : ∃ (s : State) (L : Latch) (c k : Nat), s.inflight = some L ∧ L.i = 0 ∧ SlotLive c s ∧
    ¬(L.a0 = 0#64 ∧ L.a1 ≠ 0#64) ∧ L.a0.toNat + L.a1.toNat ≤ 2 ^ 64 ∧ k < L.a1.toNat ∧
    memSilent s.params (rangeAddr L k) = true ∧
    ∀ j, j < k → memSilent s.params (rangeAddr L j) = false ∧ memFault s.params (rangeAddr L j) = false :=
  ⟨inFlight 0x02#64 0x2000#64 4#64 { s0 with params := { params0 with silentAt := [{ base := 0x2002, size := 1 }] } },
    latch 0x02#64 0x2000#64 4#64, 0, 2, rfl, rfl, live_s0, by decide, by decide, by decide, by decide +kernel,
    by decide +kernel⟩

theorem witness_ReadsStayInsideTheRange : ∃ (s t : State) (L : Latch) (c : Nat), s.inflight = some L ∧ L.i = 0 ∧
    s.portReads = [] ∧ exec (.append c) s = .next t :=
  ⟨inFlight 0x02#64 0x1000#64 9#64 s0, _, latch 0x02#64 0x1000#64 9#64, 0, rfl, rfl, rfl, rfl⟩

theorem witness_ReadsStayInside_other : ∃ (i : Instr) (s t : State), (∀ c, i ≠ .append c) ∧ exec i s = .next t :=
  ⟨.stepWord, s0, _, by simp, rfl⟩

theorem witness_RacingReads_range : ∃ (s : State) (L : Latch) (i n : Nat) (d : List Byte), readRange L i n s = .bytes d ∧
    n = 9 := by
  refine ⟨inFlight 0x02#64 0x1000#64 9#64 s0, latch 0x02#64 0x1000#64 9#64, 0, 9, _, readRange_bytes _ _ _ _ ?_, rfl⟩
  decide +kernel

theorem witness_RacingReads_store : ∃ (s : State) (L : Latch), Memory.wf s.mem = true ∧ s.inflight = some L :=
  ⟨inFlight 0x02#64 0x1000#64 9#64 s0, latch 0x02#64 0x1000#64 9#64, test_memory0_wf, rfl⟩

theorem witness_VisibleStoresAreSeen : ∃ (s : State) (a : Word) (b : Byte) (rest : List Event), Memory.wf s.mem = true ∧
    s.events = .memStore a b :: rest :=
  ⟨{ s0 with events := [.memStore 0xFFFFFFFFFFFFFFFF#64 0#8] }, _, _, [], test_memory0_wf, rfl⟩

/-- A feed of an APPEND of the nine digits, with the fold path asked for. -/
theorem witness_ChunkingDoesNotMatter : Idle s0 ∧ SlotLive 0 s0 ∧
    ∀ f ∈ [Feed.append 1#64 0x1000#64 9#64, Feed.appendImm 2#64 0#64 8#64, Feed.checksum 0#64 0#64 0#64], FeedValid s0 f := by
  refine ⟨idle_s0, live_s0, ?_⟩
  intro f hf
  simp only [List.mem_cons, List.not_mem_nil, or_false] at hf
  rcases hf with rfl | rfl | rfl
  · refine ⟨by decide, by decide, ?_⟩
    decide +kernel
  · exact (by decide : (8#64).toNat ≤ 8)
  · trivial

theorem witness_QueriesAreRepeatable : Idle s0 ∧ SlotLive 0 s0 ∧
    ∀ z ∈ [Feed.append 0#64 0x1000#64 0#64], ∃ k' a', z = Feed.append k' a' 0#64 ∨ z = Feed.appendImm k' a' 0#64 :=
  ⟨idle_s0, live_s0, fun _ hz => ⟨0#64, 0x1000#64, .inl (List.mem_singleton.1 hz)⟩⟩

theorem witness_EmptyDigestChecksumIsZero :
    1 < numCtx s0.params ∧ (slotAt 1 s0).live = false ∧ ∀ j, j < 1 → (slotAt j s0).live = true := by decide +kernel

theorem witness_IssueSequenceRunsTheCommand : ∃ (h : HostRun) (w : Word) (i : Instr), Idle h.engine ∧ h.line = 0 ∧
    ReadsAnswered (accept w h.engine) (newLatch w h.engine) ∧ decode w = .ok i :=
  ⟨{ vars := vectorOf 32 fun _ => 0#64, line := 0, engine := s0 }, 0x02#64, .append 0, idle_s0, rfl,
    fun _ _ => answered _ _ rfl, by decide +kernel⟩

theorem witness_IssueSequence_illegal : ∃ (h : HostRun) (w : Word) (e : DecodeError), Idle h.engine ∧ h.line = 0 ∧
    ReadsAnswered (accept w h.engine) (newLatch w h.engine) ∧ decode w = .error e :=
  ⟨{ vars := vectorOf 32 fun _ => 0#64, line := 0, engine := s0 }, 0x0107#64, .unassignedOpcode, idle_s0, rfl,
    fun _ _ => answered _ _ rfl, by decide +kernel⟩

end Sys2Proof.Tests
end

section
/-! PROOFS. How a command can end, said once (R192, R193, R241, R291): with an error, with a success, or, for an APPEND alone, not
yet. -/

namespace Sys2Proof.Machine

/-- The commands whose success puts a value into `RESULT` (R32). -/
def answersValue : Instr → Bool
  | .nop | .append _ | .appendImm _ | .destroy _ => false
  | .create | .checksum _ | .getreg _ | .stepByte | .stepWord | .tblRead => true

/-- What the run of the command `i` from `s` can end in. The reads made before that end are `r`. A value comes from a command
that answers one alone, and the staged change is of a slot that exists. -/
inductive CommandEnd (i : Instr) (s : State) : State → Prop
  | raised (e : ErrCode) (r : List Word) : CommandEnd i s (raiseError e { s with portReads := r })
  | succeeded (v : Option Word) (g : Option (Nat × Slot)) (r : List Word)
      (hv : answersValue i = false → v = none) (hg : ∀ c x, g = some (c, x) → c < numCtx s.params) :
      CommandEnd i s (complete .ok v g { s with portReads := r })
  | unanswered (c : Nat) (hi : i = .append c) : CommandEnd i s s

/-- A success without a staged change. -/
theorem CommandEnd.value (i : Instr) (s : State) (v : Option Word) (hv : answersValue i = false → v = none) :
    CommandEnd i s (complete .ok v none s) :=
  .succeeded v none s.portReads hv (by simp)

/-- A success that changes slot `c`. -/
theorem CommandEnd.slot {i : Instr} {s : State} {v : Option Word} {c : Nat} {x : Slot} (r : List Word)
    (hv : answersValue i = false → v = none) (hc : c < numCtx s.params) :
    CommandEnd i s (complete .ok v (some (c, x)) { s with portReads := r }) :=
  .succeeded v (some (c, x)) r hv (by rintro _ _ ⟨⟩; exact hc)

/-- A command behind its checks ends in their error, or as it does when they find none. -/
theorem CommandEnd.checked {i : Instr} {s t : State} (e : Option ErrCode) (h : e = none → CommandEnd i s t) :
    CommandEnd i s (orRaise e s t) := by
  cases e with
  | none => exact h rfl
  | some code => exact .raised code s.portReads

/-- Checks that begin with the context check find nothing only on a slot that exists (R194). -/
theorem lt_numCtx_of_checks {c : Nat} {s : State} {e : Option ErrCode} (h : (checkCtx c s).or e = none) :
    c < numCtx s.params :=
  ((checkCtx_eq_none_iff c s).1 (Option.or_eq_none_iff.1 h).1).1

theorem finishAppend_end {c : Nat} {s : State} (L : Latch) (o : RangeOutcome) (hc : c < numCtx s.params) :
    CommandEnd (.append c) s (finishAppend c L o s) := by
  cases o with
  | silent => exact .unanswered c rfl
  | busFault k => exact .raised .bus _
  | bytes d => exact .slot _ (fun _ => rfl) hc

/-- Every meaning ends its command in one of these ways. -/
theorem exec_end {i : Instr} {s t : State} (h : exec i s = .next t) : CommandEnd i s t := by
  cases i <;> obtain rfl := Host.Outcome.next.inj h
  case nop => exact .value _ s none (fun _ => rfl)
  case create =>
    split
    · exact .raised .noSlot s.portReads
    · next c hc => exact .slot s.portReads nofun ((leastFree_eq_some_iff c s).1 hc).1
  case append c => exact .checked _ fun he => finishAppend_end _ _ (lt_numCtx_of_checks he)
  case appendImm c => exact .checked _ fun he => .slot s.portReads (fun _ => rfl) (lt_numCtx_of_checks he)
  case checksum c => exact .checked _ fun _ => .value _ s _ nofun
  case getreg c => exact .checked _ fun _ => .value _ s _ nofun
  case destroy c => exact .checked _ fun he => .slot s.portReads (fun _ => rfl) ((checkCtx_eq_none_iff c s).1 he).1
  case stepByte => exact .checked _ fun _ => .value _ s _ nofun
  case stepWord => exact .value _ s _ nofun
  case tblRead => exact .checked _ fun _ => .value _ s _ nofun

/-- Settles O23: an error and a success without a value leave `RESULT` as it is, and an APPEND not yet answered leaves
everything. -/
theorem resultIsWrittenOnlyByValueCommands : Obligations.ResultIsWrittenOnlyByValueCommands := by
  intro i s t h hi
  cases exec_end h with
  | raised e r => exact raiseError_result e _
  | unanswered => rfl
  | succeeded v g r hv =>
    have hno : answersValue i = false := by
      rcases hi with he | rfl | ⟨c, rfl⟩ | ⟨c, rfl⟩ | ⟨c, rfl⟩
      · exact absurd (complete_errcode ..) he
      all_goals rfl
    simp [hv hno]

end Sys2Proof.Machine
end

section
/-! PROOFS. The invariant of the engine (R36, R40, R27, R123, R193, R198, R63): one lemma for each thing that can happen, and from
them the step. -/

namespace Sys2Proof.Machine

section Preservation

variable {s t : State}

/-! ### Reset, the builder, stores and the host -/

theorem slotAt_resetEngine_live (c : Nat) (s : State) : (slotAt c (resetEngine s)).live = false := by
  rcases Nat.lt_or_ge c 256 with hc | hc
  · have h : State.reset.slots[c] = { live := false, reg := 0#64 } := vectorOf_getElem 256 _ c hc
    simp [slotAt, h, hc]
  · simp [slotAt, hc, freeSlot]

theorem EngineInv.resetEngine (hs : EngineInv s) : EngineInv (resetEngine s) where
  busy_iff := by simp [State.reset]
  ready_iff := by simp [State.reset]
  tables_built := nofun
  running_idle _ := rfl
  accessed_first := nofun
  ctrl_legal := nofun
  sel_legal := nofun
  slots_exist c _ := slotAt_resetEngine_live c s
  mem_wf := hs.mem_wf
  window_closed _ := rfl
  progress_bounded := nofun
  reads_made := nofun
  only_append := nofun

/-- The builder finishes with no command in flight. -/
theorem EngineInv.finishBuild (hs : EngineInv s) (hr : s.builder = .running) (ha : s.accessed = true) :
    EngineInv (finishBuild s) :=
  { hs with
    busy_iff := by simp [hs.running_idle hr]
    ready_iff := by simp
    tables_built := fun _ => rfl
    running_idle := nofun
    accessed_first := fun _ => ha }

theorem EngineInv.builderTurn (hs : EngineInv s) (hr : s.builder = .running) : EngineInv (builderTurn s) := by
  rcases builderTurn_cases s with ⟨ha, e⟩ | ⟨-, e⟩
  · exact e ▸ hs.finishBuild hr ha
  · rwa [e]

/-- A store keeps memory canonical, and opens no window where no command is in flight. -/
theorem EngineInv.memStore (hs : EngineInv s) (a : Word) (b : Byte) : EngineInv (memStore a b s) :=
  { hs with
    mem_wf := Memory.write_wf s.mem a.toNat b a.isLt hs.mem_wf
    window_closed := fun h => by
      have hi : s.inflight = none := h
      simp [hi, hs.window_closed hi] }

theorem EngineInv.not_busy (hs : EngineInv s) (h : s.busy = false) : s.inflight = none ∧ s.builder = .done := by
  have hb : ¬(s.inflight.isSome = true ∨ s.builder = .running) := mt hs.busy_iff.2 (by simp [h])
  rw [not_or, Option.not_isSome_iff_eq_none] at hb
  obtain ⟨hnone, hnot⟩ := hb
  cases hd : s.builder with
  | running => exact absurd hd hnot
  | done => exact ⟨hnone, rfl⟩

/-- Acceptance while idle: a fresh latch with no byte consumed and no read made, its path as legal as `CTRL`'s. -/
theorem EngineInv.accept (hs : EngineInv s) (w : Word) (h : s.busy = false) : EngineInv (accept w s) :=
  { hs with
    busy_iff := by simp
    running_idle := fun hr => by simp [(hs.not_busy h).2] at hr
    sel_legal := by rintro _ ⟨⟩; exact hs.ctrl_legal
    window_closed := nofun
    progress_bounded := by rintro _ ⟨⟩; exact Nat.zero_le _
    reads_made := by rintro _ ⟨⟩; rfl
    only_append := by rintro _ ⟨⟩ h0; exact absurd rfl h0 }

theorem EngineInv.issueCommand (hs : EngineInv s) (w : Word) : EngineInv (issueCommand w s) := by
  rcases issueCommand_cases w s with ⟨-, e⟩ | ⟨h, e⟩
  · exact e ▸ { hs with }
  · exact e ▸ hs.accept w h

theorem EngineInv.regWrite (hs : EngineInv s) (r : Reg) (v : Word) : EngineInv (regWrite r v s) := by
  cases r with
  | ctrl => exact { hs with ctrl_legal := fun h => (Bool.and_eq_true_iff.1 h).2 }
  | status =>
    rw [Machine.regWrite]
    split
    · exact { hs with }
    · exact hs
  | cmd => exact hs.issueCommand v
  | arg0 | arg1 => exact { hs with }
  | id | version | cap | pWidth | pPoly | pInit | pXorout | pFlags | pCheck | result => exact hs

theorem EngineInv.hostWriteEffect (hs : EngineInv s) (off : Nat) (v : Word) : EngineInv (hostWriteEffect off v s) := by
  unfold Machine.hostWriteEffect
  split
  · exact hs.regWrite _ v
  · exact hs

/-- An access of the block takes effect: that, and the answer on the bus, are no concern of the invariant. -/
theorem EngineInv.answered (hs : EngineInv s) (a : HostReply) : EngineInv { s with accessed := true, reply := some a } :=
  { hs with accessed_first := fun _ => rfl }

theorem EngineInv.hostRead (hs : EngineInv s) (a : Word) (n : Nat) : EngineInv (hostRead a n s) := by
  unfold Machine.hostRead
  split
  · exact hs.answered _
  · exact { hs with }
  · exact { hs with }

theorem EngineInv.hostWrite (hs : EngineInv s) (a : Word) (n : Nat) (v : Word) : EngineInv (hostWrite a n v s) := by
  unfold Machine.hostWrite
  split
  · exact (hs.hostWriteEffect _ v).answered _
  · exact { hs with }
  · exact { hs with }

/-! ### The engine with a command in flight -/

/-- A completion leaves every slot but the staged one as it is. -/
theorem slotAt_complete_of_ne (x : Nat) (e : ErrCode) (v : Option Word) (g : Option (Nat × Slot)) (s : State)
    (hg : ∀ y, g ≠ some (x, y)) : slotAt x (complete e v g s) = slotAt x s := by
  simp only [slotAt, complete_slots]
  split
  · match g with
    | none => rfl
    | some (c, y) =>
      have hc : c ≠ x := fun h => hg y (by rw [h])
      rw [applyStaged, Vector.getElem?_setIfInBounds_ne hc]
  · rfl

/-- A completion takes the command out of flight; its staged change is of a slot that exists. -/
theorem EngineInv.complete (hs : EngineInv s) (hb : s.builder = .done) (e : ErrCode) (v : Option Word)
    (g : Option (Nat × Slot)) (r : List Word) (hg : ∀ c x, g = some (c, x) → c < numCtx s.params) :
    EngineInv (complete e v g { s with portReads := r }) :=
  { hs with
    busy_iff := by simp [hb]
    running_idle := fun _ => rfl
    sel_legal := nofun
    slots_exist := fun x hx => by
      rw [slotAt_complete_of_ne x e v g _ fun y hy => Nat.not_lt.2 hx (hg x y hy)]
      exact hs.slots_exist x hx
    window_closed := fun _ => rfl
    progress_bounded := nofun
    reads_made := nofun
    only_append := nofun }

theorem EngineInv.raiseError (hs : EngineInv s) (hb : s.builder = .done) (e : ErrCode) (r : List Word) :
    EngineInv (raiseError e { s with portReads := r }) :=
  hs.complete hb e none none r nofun

theorem EngineInv.exec (hs : EngineInv s) (hb : s.builder = .done) {i : Instr} (h : exec i s = .next t) :
    EngineInv t := by
  cases exec_end h with
  | raised e r => exact hs.raiseError hb e r
  | succeeded v g r _ hg => exact hs.complete hb .ok v g r hg
  | unanswered => exact hs

theorem EngineInv.runWord (hs : EngineInv s) (hb : s.builder = .done) {w : Word} (h : runWord w s = .next t) :
    EngineInv t := by
  cases hd : decode w with
  | ok i => exact hs.exec hb (runWord_ok w i s hd ▸ h)
  | error e =>
    obtain rfl := Host.Outcome.next.inj (runWord_error w e s hd ▸ h)
    exact hs.raiseError hb .illegal s.portReads

/-- The next block or byte of an APPEND: the reads made are again those of the bytes consumed, now `n` more of both. -/
theorem EngineInv.consumeUnit (hs : EngineInv s) (hb : s.builder = .done) {L : Latch} (hL : s.inflight = some L) {c n : Nat}
    (hw : decode L.w = .ok (.append c)) (he : appendError c L s = none) (hn : L.i + n ≤ appendLength L) (o : RangeOutcome) :
    EngineInv (consumeUnit c L n o s) := by
  cases o with
  | silent => exact hs
  | busFault k => exact hs.raiseError hb .bus _
  | bytes d =>
    exact { hs with
      busy_iff := by simp [Machine.consumeUnit, hs.busy_iff, hL]
      running_idle := fun hr => by simp [Machine.consumeUnit, hb] at hr
      sel_legal := by rintro _ ⟨⟩; exact hs.sel_legal L hL
      window_closed := nofun
      progress_bounded := by rintro _ ⟨⟩; exact hn
      reads_made := by
        rintro _ ⟨⟩
        change s.portReads ++ (List.range' L.i n).map (rangeAddr L) = (List.range (L.i + n)).map (rangeAddr L)
        rw [hs.reads_made L hL, ← List.map_append, List.range'_eq_map_range, ← List.range_add]
      only_append := by rintro _ ⟨⟩ _; exact ⟨c, hw, he⟩ }

/-- The small step that `commandUnit` answers is an APPEND's, past its checks and with a byte left to consume (R198). -/
theorem commandUnit_eq_some {i : Instr} {L : Latch} (hL : s.inflight = some L) (h : commandUnit i s = some t) :
    ∃ c, i = .append c ∧ appendError c L s = none ∧ L.i < appendLength L ∧
      t = consumeUnit c L (unitLength s.params L) (readRange L L.i (unitLength s.params L) s) s := by
  cases i with
  | append c =>
    simp only [commandUnit, appendUnit, operandLatch_of_inflight s L hL, Option.ite_none_right_eq_some,
      Option.some.injEq] at h
    obtain ⟨⟨he, hi⟩, rfl⟩ := h
    exact ⟨c, rfl, he, hi, rfl⟩
  | nop | create | appendImm | checksum | getreg | destroy | stepByte | stepWord | tblRead => cases h

theorem EngineInv.runWordUnit (hs : EngineInv s) (hb : s.builder = .done) {L : Latch} (hL : s.inflight = some L)
    (h : runWordUnit L.w s = .next t) : EngineInv t := by
  unfold Machine.runWordUnit at h
  split at h
  · next i hd =>
    split at h
    · next u hu =>
      obtain rfl := Host.Outcome.next.inj h
      obtain ⟨c, rfl, he, hi, rfl⟩ := commandUnit_eq_some hL hu
      exact hs.consumeUnit hb hL hd he (unitLength_bounds s.params L hi).2 _
    · exact hs.exec hb h
  · obtain rfl := Host.Outcome.next.inj h
    exact hs.raiseError hb .illegal s.portReads

/-! ### The step -/

theorem EngineInv.engineRun (hs : EngineInv s) (h : engineRun s = .next t) : EngineInv t := by
  unfold Machine.engineRun at h
  split at h
  · next hr => exact Host.Outcome.next.inj h ▸ hs.builderTurn hr
  · next hb _ => exact hs.runWord hb h
  · exact Host.Outcome.next.inj h ▸ hs

theorem EngineInv.engineUnit (hs : EngineInv s) (h : engineUnit s = .next t) : EngineInv t := by
  unfold Machine.engineUnit at h
  split at h
  · next hr => exact Host.Outcome.next.inj h ▸ hs.builderTurn hr
  · next hb hL => exact hs.runWordUnit hb hL h
  · exact Host.Outcome.next.inj h ▸ hs

theorem EngineInv.takeEvent (hs : EngineInv s) (e : Event) (h : takeEvent e s = .next t) : EngineInv t := by
  cases e with
  | reset => exact Host.Outcome.next.inj h ▸ hs.resetEngine
  | hostRead a n => exact Host.Outcome.next.inj h ▸ hs.hostRead a n
  | hostWrite a n v => exact Host.Outcome.next.inj h ▸ hs.hostWrite a n v
  | memStore a b => exact Host.Outcome.next.inj h ▸ hs.memStore a b
  | engineUnit => exact hs.engineUnit h
  | engineRun => exact hs.engineRun h

/-- The invariant says nothing of the events to come. -/
theorem EngineInv.withEvents (hs : EngineInv s) (es : List Event) : EngineInv { s with events := es } :=
  { hs with }

end Preservation

/-- Settles O48: a step is the first event of the queue or, with none, the engine's run, and each of them keeps the
invariant. -/
theorem stepKeepsTheInvariant : Obligations.StepKeepsTheInvariant := by
  intro s t hs h
  cases he : s.events with
  | nil => exact hs.engineRun (step_no_event s he ▸ h)
  | cons e rest => exact (hs.withEvents rest).takeEvent e (step_event e rest s he ▸ h)

end Sys2Proof.Machine
end

section
/-! PROOFS. The register block (R21 to R32): what a host reads and writes at each offset, and the accesses it answers with a bus
error. -/

namespace Sys2Proof.Machine

/-! ### Host accesses as steps -/

theorem step_hostRead {s : State} {rest : List Event} {a : Word} {n : Nat} (h : s.events = .hostRead a n :: rest) :
    step s = .next (hostRead a n { s with events := rest }) :=
  step_event _ rest s h

theorem step_hostWrite {s : State} {rest : List Event} {a v : Word} {n : Nat} (h : s.events = .hostWrite a n v :: rest) :
    step s = .next (hostWrite a n v { s with events := rest }) :=
  step_event _ rest s h

/-- Settles O30: such an access falls on no slot of the block, for a read as for a write (R21, R243). -/
theorem misalignedHostAccessesAreBusErrors : Obligations.MisalignedHostAccessesAreBusErrors := by
  intro s rest off n v hoff hn h8 _
  have hb : blockAccess s.params (regBase s.params + BitVec.ofNat 64 off) n = .busError :=
    blockAccess_busError s.params off n hoff hn h8
  exact ⟨fun h => by rw [step_hostRead h, hostRead, hb], fun h => by rw [step_hostWrite h, hostWrite, hb]⟩

/-! ### Reads -/

/-- What a host reads depends on no event to come. -/
theorem hostReadValue_events (off : Nat) (s : State) (es : List Event) :
    hostReadValue off { s with events := es } = hostReadValue off s := by
  unfold hostReadValue
  split
  · next r _ => cases r <;> rfl
  · rfl

theorem readsAs_hostReadValue {off : Nat} (h : off < 256) (h8 : off % 8 = 0) : ReadsAs off (hostReadValue off) := by
  intro s rest hs
  have hb : blockAccess s.params (regBase s.params + BitVec.ofNat 64 off) 8 = .slot off := blockAccess_slot s.params off h h8
  rw [step_hostRead hs, hostRead, hb]
  simp only [hostReadValue_events]

theorem regOffset_lt (r : Reg) : regOffset r < 256 := by cases r <;> decide

theorem regOffset_aligned (r : Reg) : regOffset r % 8 = 0 := by cases r <;> rfl

/-- A read at a register's offset answers the register's value (R22). -/
theorem readsAs_register (r : Reg) : ReadsAs (regOffset r) (regValue r) := by
  have hv : hostReadValue (regOffset r) = regValue r := by
    funext s
    rw [hostReadValue, regAt_regOffset]
  exact hv ▸ readsAs_hostReadValue (regOffset_lt r) (regOffset_aligned r)

/-- A read at a reserved offset answers 0 (R23). -/
theorem readsAs_reserved (k : Nat) (h : 15 ≤ k) (hk : k < 32) : ReadsAs (8 * k) fun _ => 0#64 := by
  have hv : hostReadValue (8 * k) = fun _ => 0#64 := by
    funext s
    rw [hostReadValue, regAt_reserved k h]
  exact hv ▸ readsAs_hostReadValue (by omega) (by omega)

/-! ### Fields of the words a host reads -/

/-! A word of the map is a concatenation whose parts' widths sum to 64; the laws of `++` apply once the sum is written out. -/

theorem ctrlWord_fields (c : Sel) :
    (ctrlWord c).getLsbD 0 = c.bulkSel ∧ (ctrlWord c).getLsbD 1 = c.scalarOnly ∧
      (ctrlWord c).extractLsb' 2 62 = 0#62 := by
  refine ⟨?_, ?_, ?_⟩
  · show BitVec.getLsbD (w := 62 + 1 + 1) _ _ = _
    simp only [ctrlWord, BitVec.getLsbD_append]
    simp
  · show BitVec.getLsbD (w := 62 + 1 + 1) _ _ = _
    simp only [ctrlWord, BitVec.getLsbD_append]
    simp
  · show BitVec.extractLsb' (n := 62 + 1 + 1) _ _ _ = _
    simp [-Nat.reduceAdd, ctrlWord, BitVec.extractLsb'_append_eq_of_le]

theorem statusWord_bits (s : State) :
    (statusWord s).getLsbD 0 = s.busy ∧ (statusWord s).getLsbD 1 = s.tblReady ∧ (statusWord s).getLsbD 2 = s.overrun := by
  refine ⟨?_, ?_, ?_⟩ <;>
    (show BitVec.getLsbD (w := 48 + 8 + 5 + 1 + 1 + 1) _ _ = _
     simp only [statusWord, BitVec.getLsbD_append]
     simp)

theorem statusWord_fields (s : State) :
    (statusWord s).extractLsb' 3 5 = 0#5 ∧ (statusWord s).extractLsb' 8 8 = errCodeBits s.errcode ∧
      (statusWord s).extractLsb' 16 48 = 0#48 := by
  refine ⟨?_, ?_, ?_⟩ <;>
    (show BitVec.extractLsb' (n := 48 + 8 + 5 + 1 + 1 + 1) _ _ _ = _
     simp [-Nat.reduceAdd, statusWord, BitVec.extractLsb'_append_eq_of_le, BitVec.extractLsb'_append_eq_right])

/-- Settles O28: each field of `STATUS` is one part of the concatenation that `statusWord` is, and the codes are those of
`errCodeBits`. -/
theorem statusFieldsAreWhereTheSpecPutsThem : Obligations.StatusFieldsAreWhereTheSpecPutsThem := by
  intro s
  obtain ⟨hbusy, hready, hoverrun⟩ := statusWord_bits s
  obtain ⟨hlow, hcode, hhigh⟩ := statusWord_fields s
  exact ⟨hbusy, hready, hoverrun, hlow, hcode, hhigh, rfl, rfl, rfl, rfl, rfl, rfl, rfl, rfl, rfl⟩

theorem lanes_lt (p : Params) : lanes p < 256 := by
  have := p.lanesM1.isLt
  unfold lanes
  omega

theorem capWord_fields (p : Params) :
    (capWord p).extractLsb' 0 8 = p.numCtxM1 ∧ (capWord p).extractLsb' 8 8 = BitVec.ofNat 8 nTables ∧
      (capWord p).extractLsb' 16 8 = BitVec.ofNat 8 (lanes p) ∧ (capWord p).extractLsb' 25 39 = 0#39 := by
  refine ⟨?_, ?_, ?_, ?_⟩ <;>
    (show BitVec.extractLsb' (n := 39 + 1 + 8 + 8 + 8) _ _ _ = _
     simp [-Nat.reduceAdd, capWord, BitVec.extractLsb'_append_eq_of_le, BitVec.extractLsb'_append_eq_right])

theorem capWord_hasClmul (p : Params) : (capWord p).getLsbD 24 = p.hasClmul := by
  show BitVec.getLsbD (w := 39 + 1 + 8 + 8 + 8) _ _ = _
  simp only [capWord, BitVec.getLsbD_append]
  simp

/-- Settles O29: each field of `CAP` is one part of the concatenation that `capWord` is, and `LANES` fits its 8 bits. -/
theorem capFieldsAreWhereTheSpecPutsThem : Obligations.CapFieldsAreWhereTheSpecPutsThem := by
  intro p
  obtain ⟨hctx, htables, hlanes, hhigh⟩ := capWord_fields p
  refine ⟨?_, htables, ?_, capWord_hasClmul p, hhigh⟩
  · rw [hctx, numCtx, Nat.add_sub_cancel]
  · rw [hlanes, BitVec.toNat_ofNat, Nat.mod_eq_of_lt (lanes_lt p)]

/-- Settles O25: one register of the map after the other, then the reserved offsets and the fields of `CTRL`. -/
theorem registerBlockReads : Obligations.RegisterBlockReads :=
  ⟨readsAs_register .id, readsAs_register .version, readsAs_register .cap, readsAs_register .pWidth, readsAs_register .pPoly,
    readsAs_register .pInit, readsAs_register .pXorout, readsAs_register .pFlags, readsAs_register .pCheck,
    readsAs_register .ctrl, readsAs_register .status, readsAs_register .cmd, readsAs_register .arg0, readsAs_register .arg1,
    readsAs_register .result, readsAs_reserved, ctrlWord_fields⟩

/-! ### Writes -/

theorem writesAs_hostWriteEffect {off : Nat} (h : off < 256) (h8 : off % 8 = 0) : WritesAs off (hostWriteEffect off) := by
  intro s v rest hs
  have hb : blockAccess s.params (regBase s.params + BitVec.ofNat 64 off) 8 = .slot off := blockAccess_slot s.params off h h8
  rw [step_hostWrite hs, hostWrite, hb]

/-- A write at a register's offset is a write of the register (R22). -/
theorem writesAs_register (r : Reg) : WritesAs (regOffset r) (regWrite r) := by
  have hv : hostWriteEffect (regOffset r) = regWrite r := by
    funext v s
    rw [hostWriteEffect, regAt_regOffset]
  exact hv ▸ writesAs_hostWriteEffect (regOffset_lt r) (regOffset_aligned r)

/-- A write at a reserved offset has no effect (R23). -/
theorem writesAs_reserved (k : Nat) (h : 15 ≤ k) (hk : k < 32) : WritesAs (8 * k) fun _ s => s := by
  have hv : hostWriteEffect (8 * k) = fun _ s => s := by
    funext v s
    rw [hostWriteEffect, regAt_reserved k h]
  exact hv ▸ writesAs_hostWriteEffect (by omega) (by omega)

/-- A write of `STATUS` clears `OVERRUN` exactly when bit 2 is 1 (R28). -/
theorem regWrite_status : regWrite .status = fun v s => { s with overrun := s.overrun && !v.getLsbD 2 } := by
  funext v s
  rw [regWrite]
  cases v.getLsbD 2 <;> simp

/-- Settles O26: the read-only registers one by one, the four written ones, and the reserved offsets. -/
theorem registerBlockWrites : Obligations.RegisterBlockWrites := by
  refine ⟨?_, writesAs_register .ctrl, regWrite_status ▸ writesAs_register .status, writesAs_register .arg0,
    writesAs_register .arg1, writesAs_reserved⟩
  simp only [List.forall_mem_cons]
  exact ⟨writesAs_register .id, writesAs_register .version, writesAs_register .cap, writesAs_register .pWidth,
    writesAs_register .pPoly, writesAs_register .pInit, writesAs_register .pXorout, writesAs_register .pFlags,
    writesAs_register .pCheck, writesAs_register .result, nofun⟩

end Sys2Proof.Machine
end

section
/-! PROOFS. Host memory at the read port (R60 to R74): the addresses an APPEND reads, the values a racing read can return, and
the effect of a store. -/

namespace Sys2Proof.Machine

/-! ### Stores -/

/-- Settles O55: the step is the store, whose effect on memory is that of one write of a byte (R65, R70 item 1). -/
theorem visibleStoresAreSeen : Obligations.VisibleStoresAreSeen := by
  intro s a b rest hm he
  exact ⟨memStore a b { s with events := rest }, step_event _ rest s he, rfl,
    Memory.write_wf s.mem a.toNat b a.isLt hm, fun x => Memory.read_write s.mem a.toNat b x hm⟩

/-- A store while a command is in flight adds its byte to the values held at its address, in front of those the address held
before; another address holds what it held (R70 item 3). -/
theorem heldValues_memStore {s : State} {L : Latch} (a : Word) (b : Byte) (x : Nat) (hm : Memory.wf s.mem = true)
    (hL : s.inflight = some L) :
    heldValues x (memStore a b s) = if x = a.toNat then b :: heldValues x s else heldValues x s := by
  simp only [heldValues, memStore_mem, memStore_window, hL, Option.isSome_some, if_true, Memory.read_write _ _ _ _ hm]
  by_cases hx : x = a.toNat
  · simp [hx]
  · simp [hx, Ne.symm hx]

/-! ### The range of an APPEND -/

/-- What a range can give: no answer, the count of bytes before a fault inside it, or one byte of the port for each index
(R62, R198, R291). -/
theorem readRange_cases (L : Latch) (i n : Nat) (s : State) :
    readRange L i n s = .silent ∨
    (∃ k, k < n ∧ readRange L i n s = .busFault k) ∨
    readRange L i n s = .bytes ((List.range' i n).map fun j => portByte (rangeAddr L j).toNat j s) := by
  induction n generalizing i with
  | zero => exact .inr (.inr rfl)
  | succ n ih =>
    rw [readRange]
    rcases memRead_cases L i s with ⟨-, hr⟩ | ⟨-, -, hr⟩ | ⟨-, -, hr⟩ <;> rw [hr]
    · exact .inl rfl
    · exact .inr (.inl ⟨0, n.succ_pos, rfl⟩)
    · dsimp only
      rcases ih (i + 1) with h | ⟨k, hk, h⟩ | h <;> rw [h]
      · exact .inl rfl
      · exact .inr (.inl ⟨k + 1, Nat.succ_lt_succ hk, rfl⟩)
      · exact .inr (.inr rfl)

/-- The bytes of a range are those of the port, index by index. -/
theorem readRange_eq_bytes {L : Latch} {i n : Nat} {s : State} {d : List Byte} (h : readRange L i n s = .bytes d) :
    d = (List.range' i n).map fun j => portByte (rangeAddr L j).toNat j s := by
  rcases readRange_cases L i n s with e | ⟨k, -, e⟩ | e <;> rw [h] at e
  · cases e
  · cases e
  · exact RangeOutcome.bytes.inj e

/-- Settles O54: the port answers a held value (`portByte_mem`), a store adds its byte to them, and acceptance opens an empty
window. -/
theorem racingReadsReturnHeldValues : Obligations.RacingReadsReturnHeldValues := by
  refine ⟨?_, fun s L a b x hm hL => heldValues_memStore a b x hm hL, fun s w x => heldValues_of_window_nil x _ rfl⟩
  intro s L i n d h
  obtain rfl := readRange_eq_bytes h
  refine ⟨by simp, fun j hj => ?_⟩
  rw [List.getElem_map, List.getElem_range', Nat.one_mul]
  exact portByte_mem _ _ s

/-- The addresses of a range of at most `2^64` bytes are distinct, wherever it begins. -/
theorem nodup_map_rangeAddr (L : Latch) {k : Nat} (hk : k ≤ 2 ^ 64) : ((List.range k).map (rangeAddr L)).Nodup := by
  refine List.Nodup.map_on (fun x hx y hy h => ?_) List.nodup_range
  rw [List.mem_range] at hx hy
  have hxy : BitVec.ofNat 64 x = BitVec.ofNat 64 y := (BitVec.add_right_inj _).1 h
  bv_omega

/-! ### The reads of a command -/

/-- No check of an APPEND answers `OK` (R197). -/
theorem appendError_ne_ok (c : Nat) (L : Latch) (s : State) : appendError c L s ≠ some .ok := by
  unfold appendError
  rcases checkCtx_cases c s with ⟨-, hc⟩ | ⟨-, -, hc⟩ | ⟨-, -, hc⟩ <;> rw [hc]
  · nofun
  · nofun
  · unfold appendArgError
    split_ifs <;> nofun

/-- What an APPEND in flight can do: end in the error of its checks; wait for a read; end in `BUS` at a fault inside its
range, the reads up to that one made; or end with the bytes of its range (R197, R198). -/
theorem exec_append_cases {c : Nat} {s t : State} {L : Latch} (hL : s.inflight = some L)
    (h : exec (.append c) s = .next t) :
    (∃ e, appendError c L s = some e ∧ t = raiseError e s) ∨
    t = s ∨
    (∃ k, k < appendLength L - L.i ∧ t = raiseError .bus (logReads L L.i (k + 1) s)) ∨
    ∃ d, readRange L L.i (appendLength L - L.i) s = .bytes d ∧ t = finishAppend c L (.bytes d) s := by
  rw [exec_append c s L hL, ← orRaise_or, ← appendError] at h
  obtain rfl := Host.Outcome.next.inj h
  cases appendError c L s with
  | some e => exact .inl ⟨e, rfl, rfl⟩
  | none =>
    rw [orRaise_none]
    rcases readRange_cases L L.i (appendLength L - L.i) s with e | ⟨k, hk, e⟩ | e <;> rw [e]
    · exact .inr (.inl rfl)
    · exact .inr (.inr (.inl ⟨k, hk, rfl⟩))
    · exact .inr (.inr (.inr ⟨_, rfl, rfl⟩))

/-- The reads of an APPEND from its start, once `n` of them are made (R63). -/
theorem logReads_from_start {L : Latch} {s : State} (n : Nat) (hi : L.i = 0) (hr : s.portReads = []) :
    (logReads L L.i n s).portReads = (List.range n).map (rangeAddr L) := by
  rw [logReads_portReads, hr, hi, List.nil_append, List.range_eq_range']

/-- A command behind its checks makes no reads when it makes none past them (R193). -/
theorem orRaise_portReads (e : Option ErrCode) {s t : State} (h : t.portReads = s.portReads) :
    (orRaise e s t).portReads = s.portReads := by
  cases e with
  | none => exact h
  | some code => rfl

/-- A command other than APPEND reads nothing (R61). -/
theorem exec_portReads {i : Instr} {s t : State} (hi : ∀ c, i ≠ .append c) (h : exec i s = .next t) :
    t.portReads = s.portReads := by
  cases i <;> obtain rfl := Host.Outcome.next.inj h
  case append c => exact absurd rfl (hi c)
  case nop | stepWord => rfl
  case create => split <;> rfl
  case appendImm | checksum | getreg | destroy | stepByte | tblRead => exact orRaise_portReads _ rfl

/-- Settles O53: of the four ends of an APPEND the first two come with no read made, the third with those up to the fault, and
the last with those of the whole range. -/
theorem readsStayInsideTheRange : Obligations.ReadsStayInsideTheRange := by
  refine ⟨fun s t L c hL hi hr h => ?_, fun i s t hi h => exec_portReads hi h⟩
  suffices ∃ k, k ≤ L.a1.toNat ∧ t.portReads = (List.range k).map (rangeAddr L) ∧
      (t.inflight = none → t.errcode = .ok → k = L.a1.toNat) ∧
      (t.errcode ≠ .ok → t.errcode ≠ .bus → t.inflight = none → k = 0) by
    obtain ⟨k, hk, hreads, hends⟩ := this
    exact ⟨k, hk, hreads, hreads ▸ nodup_map_rangeAddr L (hk.trans L.a1.isLt.le), hends⟩
  rcases exec_append_cases hL h with ⟨e, he, rfl⟩ | rfl | ⟨k, hk, rfl⟩ | ⟨d, -, rfl⟩
  · exact ⟨0, Nat.zero_le _, hr, fun _ hok => absurd (hok ▸ he) (appendError_ne_ok c L s), fun _ _ _ => rfl⟩
  · exact ⟨0, Nat.zero_le _, hr, fun hnone => by simp [hL] at hnone, fun _ _ _ => rfl⟩
  · exact ⟨k + 1, hk.trans_le (Nat.sub_le ..), logReads_from_start _ hi hr, fun _ => nofun, fun _ hbus => absurd rfl hbus⟩
  · have hall : appendLength L - L.i = L.a1.toNat := by rw [hi, appendLength, Nat.sub_zero]
    exact ⟨L.a1.toNat, le_rfl, hall ▸ logReads_from_start _ hi hr, fun _ _ => rfl, fun hbad => absurd rfl hbad⟩

end Sys2Proof.Machine
end

section
/-! PROOFS. The command words (R80 to R86): which fields of a word a row of the opcode map looks at, the round trips of decoder
and encoder, and the illegal words. -/

namespace Sys2Proof

open Machine

/-! ### Words and their fields -/

/-- Two words are equal when their three fields are (R81). -/
theorem word_eq_iff (v w : Word) :
    v = w ↔ opcField v = opcField w ∧ ctxField v = ctxField w ∧ rsvField v = rsvField w := by
  refine ⟨by rintro rfl; exact ⟨rfl, rfl, rfl⟩, ?_⟩
  rintro ⟨hopc, hctx, hrsv⟩
  rw [word_of_fields v, word_of_fields w, hopc, hctx, hrsv]

theorem opcField_and (v w : Word) : opcField (v &&& w) = opcField v &&& opcField w := BitVec.extractLsb'_and

theorem ctxField_and (v w : Word) : ctxField (v &&& w) = ctxField v &&& ctxField w := BitVec.extractLsb'_and

theorem rsvField_and (v w : Word) : rsvField (v &&& w) = rsvField v &&& rsvField w := BitVec.extractLsb'_and

/-! ### The rows of the opcode map -/

/-- The fields of a row's `mask` and `match`: `OPC` and `RSV` count in full, `CTX` in full or not at all, and a row asks for no
bit outside `OPC` (R83). -/
theorem row_fields : ∀ r ∈ opcodeMap,
    opcField r.mask = BitVec.allOnes 8 ∧ rsvField r.mask = BitVec.allOnes 48 ∧
      (ctxField r.mask = BitVec.allOnes 8 ∨ ctxField r.mask = 0#8) ∧
      ctxField r.matchWord = 0#8 ∧ rsvField r.matchWord = 0#48 := by
  decide

/-- The command of a row has the row's operation code, and a slot number exactly when the row's `mask` leaves `CTX` out. -/
theorem row_command (c : Nat) : ∀ r ∈ opcodeMap,
    opcOf (r.command c) = opcField r.matchWord ∧
      (r.command c).slot? = if ctxField r.mask = 0#8 then some c else none := by
  intro r hr
  fin_cases hr <;> exact ⟨rfl, rfl⟩

/-- Every command has its row. -/
theorem exists_row (i : Instr) : ∃ r ∈ opcodeMap, r.command (i.slot?.getD 0) = i := by
  cases i <;> simp [opcodeMap, Instr.slot?]

/-- Matching a row, field by field (R83). -/
theorem rowMatches_iff {r : OpRow} (hr : r ∈ opcodeMap) (w : Word) :
    rowMatches w r = true ↔
      opcField w = opcField r.matchWord ∧ ctxField w &&& ctxField r.mask = 0#8 ∧ rsvField w = 0#48 := by
  obtain ⟨hopc, hrsv, -, hctx0, hrsv0⟩ := row_fields r hr
  rw [rowMatches, beq_iff_eq, word_eq_iff, opcField_and, ctxField_and, rsvField_and, hopc, hrsv, hctx0, hrsv0,
    BitVec.and_allOnes, BitVec.and_allOnes]

/-- The rows have different operation codes (R83). -/
theorem opcodes_nodup : (opcodeMap.map fun r => opcField r.matchWord).Nodup := by
  decide

/-- A row is known by its operation code (R83). -/
theorem row_eq_of_opcode {q r : OpRow} (hq : q ∈ opcodeMap) (hr : r ∈ opcodeMap)
    (h : opcField q.matchWord = opcField r.matchWord) : q = r :=
  List.inj_on_of_nodup_map opcodes_nodup hq hr h

/-! ### Decoding -/

/-- A word that decodes is of some row, and stands for that row's command. -/
theorem exists_row_of_decode {w : Word} {i : Instr} (h : decode w = .ok i) :
    ∃ r ∈ opcodeMap, rowMatches w r = true ∧ r.command (ctxField w).toNat = i := by
  unfold decode at h
  split at h
  · next r hf => exact ⟨r, List.mem_of_find?_eq_some hf, List.find?_some hf, Except.ok.inj h⟩
  · cases h

/-- A word of a row decodes to that row's command, since it is of no other. -/
theorem decode_of_rowMatches {w : Word} {r : OpRow} (hr : r ∈ opcodeMap) (h : rowMatches w r = true) :
    decode w = .ok (r.command (ctxField w).toNat) := by
  unfold decode
  split
  · next q hf =>
    have hq := List.mem_of_find?_eq_some hf
    have hopc := ((rowMatches_iff hq w).1 (List.find?_some hf)).1
    rw [row_eq_of_opcode hq hr (hopc.symm.trans ((rowMatches_iff hr w).1 h).1)]
  · next hf => exact absurd h (List.find?_eq_none.1 hf r hr)

/-- The illegal words are those of no row (R84). -/
theorem decode_error_iff (w : Word) : (∃ e, decode w = .error e) ↔ ¬∃ r ∈ opcodeMap, rowMatches w r = true := by
  cases hd : decode w with
  | ok i =>
    obtain ⟨r, hr, hm, -⟩ := exists_row_of_decode hd
    exact ⟨nofun, fun hno => absurd ⟨r, hr, hm⟩ hno⟩
  | error e =>
    refine ⟨?_, fun _ => ⟨e, rfl⟩⟩
    rintro - ⟨r, hr, hm⟩
    cases hd.symm.trans (decode_of_rowMatches hr hm)

/-! ### The round trips -/

/-- The slot number of a well-formed command is in the `CTX` field of its word, 0 where it has none (R81). -/
theorem ctxField_encode_toNat {i : Instr} (h : i.wellFormed = true) : (ctxField (encode i)).toNat = i.slot?.getD 0 := by
  rw [ctxField_encode]
  cases hs : i.slot? with
  | none => simp [ctxOf, hs]
  | some c => exact ctxOf_toNat i c hs h

theorem decode_encode {i : Instr} (h : i.wellFormed = true) : decode (encode i) = .ok i := by
  obtain ⟨r, hr, hi⟩ := exists_row i
  obtain ⟨hopc, hslot⟩ := row_command (i.slot?.getD 0) r hr
  rw [hi] at hopc hslot
  have hctx : ctxField (encode i) &&& ctxField r.mask = 0#8 := by
    by_cases hm : ctxField r.mask = 0#8
    · rw [hm, BitVec.and_zero]
    · rw [ctxField_encode, ctxOf, hslot, if_neg hm, Option.getD_none, BitVec.zero_and]
  have hmatch : rowMatches (encode i) r = true :=
    (rowMatches_iff hr _).2 ⟨(opcField_encode i).trans hopc, hctx, rsvField_encode i⟩
  rw [decode_of_rowMatches hr hmatch, ctxField_encode_toNat h, hi]

theorem encode_of_decode {w : Word} {i : Instr} (h : decode w = .ok i) : i.wellFormed = true ∧ encode i = w := by
  obtain ⟨r, hr, hmatch, rfl⟩ := exists_row_of_decode h
  obtain ⟨hopc, hctx, hrsv⟩ := (rowMatches_iff hr w).1 hmatch
  obtain ⟨hcode, hslot⟩ := row_command (ctxField w).toNat r hr
  obtain ⟨-, -, hmask, -⟩ := row_fields r hr
  rw [word_eq_iff, opcField_encode, ctxField_encode, rsvField_encode, hcode, hopc, hrsv, ctxOf, Instr.wellFormed, hslot]
  rcases hmask with hm | hm <;> rw [hm] at hctx ⊢
  · rw [BitVec.and_allOnes] at hctx
    simp [hctx]
  · simpa using (ctxField w).isLt

/-- Bit `i` of the little-endian reading is bit `i % 8` of byte `i / 8` (R7). -/
theorem getLsbD_le64 (d : List Byte) (i : Nat) (h : i < 64) :
    (le64 d).getLsbD i = (d.getD (i / 8) 0#8).getLsbD (i % 8) := by
  induction d generalizing i with
  | nil => simp [le64_nil]
  | cons b d ih =>
    rw [le64_cons, BitVec.getLsbD_or, zext64, BitVec.getLsbD_setWidth, BitVec.getLsbD_shiftLeft]
    by_cases hi : i < 8
    · simp [h, hi, Nat.div_eq_of_lt hi, Nat.mod_eq_of_lt hi]
    · obtain ⟨k, rfl⟩ : ∃ k, i = k + 8 := ⟨i - 8, by omega⟩
      rw [BitVec.getLsbD_of_ge b _ (by omega), Nat.add_sub_cancel, ih k (by omega), Nat.add_div_right k (by omega),
        Nat.add_mod_right, List.getD_cons_succ]
      simp [h]

/-- The eight byte lanes of a word carry all of it (R64). -/
theorem le64_lowBytes (w : Word) : le64 (lowBytes w 8) = w := by
  refine BitVec.eq_of_getLsbD_eq fun i hi => ?_
  rw [getLsbD_le64 _ i hi, lowBytes, List.getD_eq_getElem _ _ (by simp; omega), List.getElem_map, List.getElem_range,
    byteAt, BitVec.getLsbD_extractLsb', decide_eq_true (Nat.mod_lt i (by omega)), Bool.true_and, Nat.div_add_mod]

theorem decodeLanes_lowBytes (w : Word) : decodeLanes (lowBytes w 8) = decode w := by
  rw [decodeLanes, if_pos (by simp [lowBytes]), le64_lowBytes]

theorem decodeTableWord_toNat (w : Word) : decodeTableWord 64 w.toNat = (decode w).toOption := by
  rw [decodeTableWord, Nat.mod_eq_of_lt w.isLt, BitVec.ofNat_toNat, BitVec.setWidth_eq, decodeLanes_lowBytes]

/-- Settles O1: the word of a well-formed command is of the command's own row, and neither the lanes nor the table's numbering
lose a bit. -/
theorem encodedCommandsDecodeBack : Obligations.EncodedCommandsDecodeBack := by
  intro i h
  rw [decodeLanes_lowBytes, decodeTableWord_toNat, decode_encode h]
  exact ⟨rfl, rfl, rfl⟩

/-- Settles O2: the row of the word fixes `OPC` and `RSV`, and `CTX` is 0 or the slot number. -/
theorem decodedWordsEncodeBack : Obligations.DecodedWordsEncodeBack :=
  fun _ _ h => encode_of_decode h

/-- Settles O3: a word has one `OPC` field, and the rows have different operation codes. -/
theorem opcodeRowsNeverOverlap : Obligations.OpcodeRowsNeverOverlap := by
  refine (List.pairwise_map.1 opcodes_nodup).imp_of_mem fun hq hr hne w => ?_
  rintro ⟨hwq, hwr⟩
  exact hne (((rowMatches_iff hq w).1 hwq).1.symm.trans ((rowMatches_iff hr w).1 hwr).1)

/-- Settles O5: each of the words is the encoding of its command. -/
theorem specWordsDecode : Obligations.SpecWordsDecode :=
  ⟨decode_encode (i := .append 2) rfl, decode_encode (i := .checksum 255) rfl, decode_encode (i := .destroy 1) rfl,
    decode_encode (i := .appendImm 0) rfl, decode_encode (i := .getreg 7) rfl, decode_encode (i := .nop) rfl,
    decode_encode (i := .create) rfl, decode_encode (i := .stepByte) rfl, decode_encode (i := .stepWord) rfl,
    decode_encode (i := .tblRead) rfl⟩

/-! ### Illegal words -/

/-- The operation codes of the map, row by row (R83). -/
theorem mem_opcodes_iff (o : Byte) :
    o ∈ [0x00#8, 0x01#8, 0x02#8, 0x03#8, 0x04#8, 0x05#8, 0x06#8, 0x10#8, 0x11#8, 0x12#8] ↔
      ∃ r ∈ opcodeMap, opcField r.matchWord = o :=
  List.mem_map (f := fun r : OpRow => opcField r.matchWord) (l := opcodeMap)

/-- The operation codes of the rows without a CTX field (R83). -/
theorem mem_plainOpcodes_iff (o : Byte) :
    o ∈ [0x00#8, 0x01#8, 0x10#8, 0x11#8, 0x12#8] ↔
      ∃ r ∈ opcodeMap, ctxField r.mask = BitVec.allOnes 8 ∧ opcField r.matchWord = o :=
  (List.mem_map (f := fun r : OpRow => opcField r.matchWord)
    (l := opcodeMap.filter fun r => ctxField r.mask = BitVec.allOnes 8)).trans
    (by simp only [List.mem_filter, decide_eq_true_eq, and_assoc])

/-- The words of some row, by their fields (R83). -/
theorem exists_rowMatches_iff (w : Word) :
    (∃ r ∈ opcodeMap, rowMatches w r = true) ↔
      opcField w ∈ [0x00#8, 0x01#8, 0x02#8, 0x03#8, 0x04#8, 0x05#8, 0x06#8, 0x10#8, 0x11#8, 0x12#8] ∧
      rsvField w = 0#48 ∧ (opcField w ∈ [0x00#8, 0x01#8, 0x10#8, 0x11#8, 0x12#8] → ctxField w = 0#8) := by
  rw [mem_opcodes_iff, mem_plainOpcodes_iff]
  constructor
  · rintro ⟨r, hr, hm⟩
    obtain ⟨hopc, hctx, hrsv⟩ := (rowMatches_iff hr w).1 hm
    refine ⟨⟨r, hr, hopc.symm⟩, hrsv, ?_⟩
    rintro ⟨q, hq, hmask, hqopc⟩
    rwa [← row_eq_of_opcode hq hr (hqopc.trans hopc), hmask, BitVec.and_allOnes] at hctx
  · rintro ⟨⟨r, hr, hopc⟩, hrsv, hplain⟩
    refine ⟨r, hr, (rowMatches_iff hr w).2 ⟨hopc.symm, ?_, hrsv⟩⟩
    obtain ⟨-, -, hmask, -⟩ := row_fields r hr
    rcases hmask with hm | hm
    · rw [hplain ⟨r, hr, hm, hopc⟩, BitVec.zero_and]
    · rw [hm, BitVec.and_zero]

/-- An illegal word in flight ends with `ILLEGAL` (R84, R241). -/
theorem engineRun_illegal {s : State} {L : Latch} {e : DecodeError} (hb : s.builder = .done) (hL : s.inflight = some L)
    (hd : decode L.w = .error e) : engineRun s = .next (ended .illegal s) := by
  rw [engineRun_inflight s L hb hL, runWord_error L.w e s hd, raiseError_eq, ended]

/-- Settles O4: an illegal word is one of no row, and the engine's run of one raises `ILLEGAL`. -/
theorem illegalWordsAreRefused : Obligations.IllegalWordsAreRefused := by
  refine ⟨fun w => ?_, fun s L e he hb hL hd =>
    (step_event _ _ s he).trans (engineRun_illegal (s := { s with events := [] }) hb hL hd)⟩
  rw [decode_error_iff, exists_rowMatches_iff]
  tauto

end Sys2Proof
end

section
/-! PROOFS. A command issued through the register block in the atomic view (R87, R88, R207): the answer on the host's bus is no
concern of a command, an answered command ends idle, and the lines of `crc.issue` around it. -/

namespace Sys2Proof.Machine

/-! ### The answer on the bus -/

/-- `s` once an access of the register block has taken effect and was answered with `a` (R21). -/
def withReply (a : HostReply) (s : State) : State := { s with accessed := true, reply := some a }

theorem hostRead_regAddr (r : Reg) (s : State) : hostRead (regAddr r s) 8 s = withReply (.data (regValue r s)) s := by
  have hb : blockAccess s.params (regAddr r s) 8 = .slot (regOffset r) :=
    blockAccess_slot s.params _ (regOffset_lt r) (regOffset_aligned r)
  rw [hostRead, hb]
  simp only [hostReadValue, regAt_regOffset]
  rfl

theorem hostWrite_regAddr (r : Reg) (v : Word) (s : State) :
    hostWrite (regAddr r s) 8 v s = withReply .written (regWrite r v s) := by
  have hb : blockAccess s.params (regAddr r s) 8 = .slot (regOffset r) :=
    blockAccess_slot s.params _ (regOffset_lt r) (regOffset_aligned r)
  rw [hostWrite, hb]
  simp only [hostWriteEffect, regAt_regOffset]
  rfl

theorem leastFree_withReply (a : HostReply) (s : State) : leastFree (withReply a s) = leastFree s := rfl

theorem readRange_withReply (L : Latch) (i n : Nat) (a : HostReply) (s : State) :
    readRange L i n (withReply a s) = readRange L i n s :=
  readRange_congr L i n s _ rfl rfl rfl rfl

theorem orRaise_withReply (e : Option ErrCode) (a : HostReply) (s t : State) :
    orRaise e (withReply a s) (withReply a t) = withReply a (orRaise e s t) := by
  cases e <;> rfl

theorem finishAppend_withReply (c : Nat) (L : Latch) (o : RangeOutcome) (a : HostReply) (s : State) :
    finishAppend c L o (withReply a s) = withReply a (finishAppend c L o s) := by
  cases o <;> rfl

/-- A command neither depends on the answer on the bus nor changes it (log 16). -/
theorem exec_withReply {i : Instr} {s t : State} (a : HostReply) (h : exec i s = .next t) :
    exec i (withReply a s) = .next (withReply a t) := by
  cases i <;> obtain rfl := Host.Outcome.next.inj h
  case nop | stepWord => rfl
  case create =>
    rw [exec, execCreate, leastFree_withReply]
    cases leastFree s <;> rfl
  case append c =>
    rw [← orRaise_withReply, ← finishAppend_withReply, ← readRange_withReply _ _ _ a]
    rfl
  case appendImm | checksum | getreg | destroy | stepByte | tblRead =>
    rw [← orRaise_withReply]
    rfl

theorem runWord_withReply {w : Word} {s t : State} (a : HostReply) (h : runWord w s = .next t) :
    runWord w (withReply a s) = .next (withReply a t) := by
  cases hd : decode w with
  | ok i =>
    rw [runWord_ok w i _ hd] at h ⊢
    exact exec_withReply a h
  | error e =>
    rw [runWord_error w e _ hd] at h ⊢
    obtain rfl := Host.Outcome.next.inj h
    rfl

/-! ### The end of an answered command -/

theorem orRaise_inflight {s t : State} (e : Option ErrCode) (h : t.inflight = none) : (orRaise e s t).inflight = none := by
  cases e with
  | none => exact h
  | some code => rfl

/-- An APPEND whose reads are all answered completes (R198, R291). -/
theorem exec_append_inflight {c : Nat} {s t : State} {L : Latch} (hL : s.inflight = some L) (ha : RangeAnswered s L)
    (h : exec (.append c) s = .next t) : t.inflight = none := by
  rw [exec_append c s L hL] at h
  obtain rfl := Host.Outcome.next.inj h
  refine orRaise_inflight _ (orRaise_inflight _ ?_)
  rcases readRange_answered L L.i (appendLength L - L.i) s fun j hj hlt => ha j (by omega) with
    ⟨d, hr, -⟩ | ⟨k, -, hr, -⟩ <;> rw [hr] <;> rfl

/-- A command whose reads are answered leaves the engine idle, `OVERRUN` as it was and the builder done (R192, R291). -/
theorem exec_answered {i : Instr} {s t : State} {L : Latch} (hL : s.inflight = some L)
    (ha : ∀ c, i = .append c → RangeAnswered s L) (h : exec i s = .next t) :
    t.busy = false ∧ t.inflight = none ∧ t.builder = s.builder ∧ t.overrun = s.overrun := by
  cases exec_end h with
  | raised | succeeded => exact ⟨rfl, rfl, rfl, rfl⟩
  | unanswered c hi =>
    subst hi
    have hnone : s.inflight = none := exec_append_inflight hL (ha c rfl) h
    cases hL.symm.trans hnone

theorem exec_eq_next (i : Instr) (s : State) : ∃ t, exec i s = .next t := by
  cases i <;> exact ⟨_, rfl⟩

/-! ### Lines of a host program -/

theorem hostSteps_succ {prog : List HostOp} {op : HostOp} {h k : HostRun} (n : Nat) (hl : prog[h.line]? = some op)
    (ho : hostOp op h = .next k) : hostSteps prog (n + 1) h = hostSteps prog n k := by
  rw [hostSteps, hostStep, hl]
  simp only [ho]

/-- With nothing in flight an engine whose builder is done is idle (R253). -/
theorem engineRun_idle {s : State} (hb : s.builder = .done) (hn : s.inflight = none) : engineRun s = .next s := by
  rw [engineRun, hb, hn]

/-- A host's read of a register of an idle engine. -/
theorem hostOp_rd {h : HostRun} (x : HostVar) (r : Reg) (hb : h.engine.builder = .done) (hn : h.engine.inflight = none) :
    hostOp (.rd x r) h = .next
      { vars := h.vars.set x (regValue r h.engine), line := h.line + 1,
        engine := withReply (.data (regValue r h.engine)) h.engine } := by
  have hrun : engineRun (withReply (.data (regValue r h.engine)) h.engine) = .next _ := engineRun_idle hb hn
  simp only [hostOp, hostAccess, takeEvent, hostRead_regAddr, hrun]
  rfl

/-- A host's write of `CMD` on an idle engine, and the engine's run of the word (R191, R207). -/
theorem hostOp_wr_cmd {h : HostRun} {w : Word} {t : State} (hb : h.engine.builder = .done) (hbusy : h.engine.busy = false)
    (hrun : runWord w (accept w h.engine) = .next t) :
    hostOp (.wr .cmd (.lit w)) h = .next { h with line := h.line + 1, engine := withReply .written t } := by
  have hissue : regWrite .cmd w h.engine = accept w h.engine := by simp [regWrite, issueCommand, hbusy]
  have hgo : engineRun (withReply .written (accept w h.engine)) = .next (withReply .written t) :=
    (engineRun_inflight (withReply .written (accept w h.engine)) (newLatch w h.engine) hb rfl).trans
      (runWord_withReply .written hrun)
  simp only [hostOp, hostAccess, takeEvent, hostValue, hostWrite_regAddr, hissue, hgo]

/-- Bit 0 of `STATUS` is `BUSY` (R28). -/
theorem statusWord_and_one {s : State} (h : s.busy = false) : statusWord s &&& 0x1#64 = 0#64 := by
  rw [BitVec.and_one_eq_setWidth_ofBool_getLsbD, (statusWord_bits s).1, h]
  rfl

/-- The host once it has read `STATUS` into `%x` and gone on: past a `wait` of two lines (R88). -/
def afterWait (x : HostVar) (h : HostRun) : HostRun :=
  { vars := h.vars.set x (statusWord h.engine), line := h.line + 2,
    engine := withReply (.data (statusWord h.engine)) h.engine }

/-- `wait` on an idle engine goes through in its two lines (R88). -/
theorem hostSteps_wait {prog : List HostOp} {h : HostRun} (x : HostVar) (n l : Nat)
    (hrd : prog[h.line]? = some (.rd x .status)) (hbnz : prog[h.line + 1]? = some (.bnz x 0x1#64 l))
    (hb : h.engine.builder = .done) (hn : h.engine.inflight = none) (hbusy : h.engine.busy = false) :
    hostSteps prog (n + 2) h = hostSteps prog n (afterWait x h) := by
  rw [hostSteps_succ _ hrd (hostOp_rd x .status hb hn)]
  refine hostSteps_succ _ hbnz ?_
  simp [hostOp, regValue, statusWord_and_one hbusy, afterWait]

/-! ### `crc.issue` -/

/-- The five lines of `crc.issue` on an idle engine, where the word's run ends idle in `t`: of the engine they change nothing
beyond that run but the answer on the bus (R88). -/
theorem hostSteps_crcIssue {h : HostRun} {w : Word} {t : State} (x : HostVar) (hidle : Idle h.engine) (h0 : h.line = 0)
    (hrun : runWord w (accept w h.engine) = .next t) (hb : t.builder = .done) (hn : t.inflight = none)
    (hbusy : t.busy = false) :
    ∃ v, hostSteps (crcIssue x w 0) 5 h = .next { vars := v, line := 5, engine := withReply (.data (statusWord t)) t } := by
  obtain ⟨vars, line, s⟩ := h
  obtain rfl : line = 0 := h0
  have hrun' : runWord w (accept w (afterWait x ⟨vars, 0, s⟩).engine) = .next (withReply _ t) := runWord_withReply _ hrun
  have hwrite := hostOp_wr_cmd (h := afterWait x ⟨vars, 0, s⟩) hidle.built hidle.not_busy hrun'
  have hlines :=
    calc hostSteps (crcIssue x w 0) 5 ⟨vars, 0, s⟩
      _ = hostSteps (crcIssue x w 0) 3 (afterWait x ⟨vars, 0, s⟩) :=
        hostSteps_wait x 3 0 rfl rfl hidle.built hidle.none_in_flight hidle.not_busy
      _ = hostSteps (crcIssue x w 0) 2 _ := hostSteps_succ 2 rfl hwrite
      _ = .next (afterWait x _) := hostSteps_wait x 0 3 rfl rfl hb hn hbusy
  exact ⟨_, hlines⟩

/-- Settles O60: the word's run ends idle, for a command since its reads are answered, and for an illegal word with
`ILLEGAL`. -/
theorem issueSequenceRunsTheCommand : Obligations.IssueSequenceRunsTheCommand := by
  intro h x w hidle h0 ha
  refine ⟨fun i hd => ?_, fun e hd => ?_⟩
  · obtain ⟨t, ht⟩ := exec_eq_next i (accept w h.engine)
    obtain ⟨hbusy, hn, hb, hover⟩ := exec_answered rfl (fun c hc => ha c (hc ▸ hd)) ht
    obtain ⟨v, hk⟩ := hostSteps_crcIssue x hidle h0 ((runWord_ok w i _ hd).trans ht) (hb.trans hidle.built) hn hbusy
    exact ⟨_, t, hk, ht, rfl, hbusy, rfl, rfl, rfl, hover⟩
  · obtain ⟨v, hk⟩ := hostSteps_crcIssue x hidle h0 (runWord_error w e _ hd) hidle.built rfl rfl
    exact ⟨_, hk, rfl, rfl, rfl, raiseError_result .illegal _, raiseError_slots .illegal _, rfl⟩

end Sys2Proof.Machine
end

section
/-! PROOFS. The arithmetic over GF(2) (R105 to R110): the scalar stepper as multiplication in `GF(2)[x]` modulo the generator, its
linearity, and the bits of the carry-less product. The reductions are followed in the quotient ring `AdjoinRoot genPoly`, where a
step is a multiplication, and are taken back to `%ₘ` once, by `readWord_eq_modByMonic`. -/

namespace Sys2Proof.Machine

open Polynomial AdjoinRoot

/-! ### The readings of words and bytes (R106) -/

/-- In characteristic 2 an XOR of bits selects what a sum selects. -/
theorem ite_xor_eq_add (a b : Bool) (p : (ZMod 2)[X]) :
    (if (a ^^ b) = true then p else 0) = (if a = true then p else 0) + (if b = true then p else 0) := by
  cases a <;> cases b <;> simp [CharTwo.add_self_eq_zero]

@[simp] theorem readWord_xor (r q : Word) : readWord (r ^^^ q) = readWord r + readWord q := by
  simp only [readWord, BitVec.getLsbD_xor, ite_xor_eq_add, Finset.sum_add_distrib]

@[simp] theorem readByte_zero : readByte 0#8 = 0 := by simp [readByte]

/-- A byte in the low 8 bits of the register is read 56 powers higher. -/
theorem readWord_zext64 (b : Byte) : readWord (zext64 b) = readByte b * X ^ 56 := by
  have hhigh : ∀ i ∈ Finset.range 56, (if (zext64 b).getLsbD (8 + i) then X ^ (63 - (8 + i)) else 0 : (ZMod 2)[X]) = 0 := by
    intro i _
    simp [zext64]
  rw [readWord, Finset.sum_range_add _ 8 56, Finset.sum_eq_zero hhigh, add_zero, readByte, Finset.sum_mul]
  refine Finset.sum_congr rfl fun j hj => ?_
  have hj8 : j < 8 := Finset.mem_range.1 hj
  have hbit : (zext64 b).getLsbD j = b.getLsbD j := by
    simp [zext64]
    omega
  rw [hbit, ite_mul, zero_mul, ← pow_add, show 7 - j + 56 = 63 - j by omega]

/-- A right shift multiplies by `x`, but for the bit that leaves at `x^64` (R107). -/
theorem readWord_mul_X (r : Word) :
    readWord r * X = readWord (r >>> 1) + if r.getLsbD 0 then X ^ 64 else 0 := by
  have hout : (r >>> 1).getLsbD 63 = false := by simp
  rw [readWord, Finset.sum_mul, Finset.sum_range_succ', readWord, Finset.sum_range_succ _ 63, hout, if_neg Bool.false_ne_true,
    add_zero]
  refine congrArg₂ _ (Finset.sum_congr rfl fun i hi => ?_) (by rw [ite_mul, zero_mul, ← pow_succ])
  have hi63 : i < 63 := Finset.mem_range.1 hi
  rw [ite_mul, zero_mul, ← pow_succ, BitVec.getLsbD_ushiftRight, Nat.add_comm 1 i, show 63 - (i + 1) + 1 = 63 - i by omega]

theorem degree_readWord_lt (r : Word) : (readWord r).degree < 64 := by
  suffices readWord r ∈ degreeLT (ZMod 2) 64 from mem_degreeLT.1 this
  refine Submodule.sum_mem _ fun i _ => mem_degreeLT.2 ?_
  split
  · rw [degree_X_pow]
    exact_mod_cast (by omega : 63 - i < 64)
  · rw [degree_zero]
    exact WithBot.bot_lt_coe _

/-! ### The generator (R101) -/

/-- `POLY` is the bit reversal of the normal form (R101). -/
theorem polyNormal_reversed : ∀ j ∈ Finset.range 64, polyNormal.getLsbD (64 - 1 - j) = poly.getLsbD j := by
  decide

theorem genPoly_eq : genPoly = X ^ 64 + readWord poly := by
  rw [genPoly, readWord, ← Finset.sum_range_reflect]
  refine congrArg _ (Finset.sum_congr rfl fun j hj => ?_)
  rw [polyNormal_reversed j hj]

theorem monic_genPoly : genPoly.Monic := by
  rw [genPoly_eq]
  exact monic_X_pow_add (degree_readWord_lt poly)

theorem degree_genPoly : genPoly.degree = 64 := by
  rw [genPoly_eq, degree_add_eq_left_of_degree_lt] <;> rw [degree_X_pow]
  · rfl
  · exact degree_readWord_lt poly

/-- A register is the remainder of every polynomial in its residue class. -/
theorem readWord_eq_modByMonic {r : Word} {p : (ZMod 2)[X]} (h : mk genPoly (readWord r) = mk genPoly p) :
    readWord r = p %ₘ genPoly := by
  have hself : readWord r %ₘ genPoly = readWord r := by
    rw [modByMonic_eq_self_iff monic_genPoly, degree_genPoly]
    exact degree_readWord_lt r
  rw [← hself]
  exact modByMonic_eq_of_dvd_sub monic_genPoly (mk_eq_mk.1 h)

/-! ### The stepper as multiplication in the quotient ring -/

/-- The XOR of `POLY` on a set bit 0 takes the generator away at degree 64 (R106). -/
theorem readWord_step1 (r : Word) :
    readWord r * X = readWord (step1 r) + (if r.getLsbD 0 then 1 else 0) * genPoly := by
  rw [readWord_mul_X, step1]
  split
  · rw [readWord_xor, genPoly_eq, one_mul, add_comm (X ^ 64), add_assoc, CharTwo.add_cancel_left]
  · rw [zero_mul]

theorem mk_readWord_step1 (r : Word) : mk genPoly (readWord (step1 r)) = mk genPoly (readWord r * X) := by
  rw [readWord_step1, map_add, map_mul _ _ genPoly, mk_self, mul_zero, add_zero]

theorem mk_readWord_step1_iterate (n : Nat) (r : Word) :
    mk genPoly (readWord (step1^[n] r)) = mk genPoly (readWord r * X ^ n) := by
  induction n with
  | zero => simp
  | succ n ih => rw [Function.iterate_succ_apply', mk_readWord_step1, map_mul, ih, ← map_mul, mul_assoc, ← pow_succ]

theorem mk_readWord_advance (r : Word) (b : Byte) :
    mk genPoly (readWord (advance r b)) = mk genPoly ((readWord r + readByte b * X ^ 56) * X ^ 8) := by
  rw [advance_eq, mk_readWord_step1_iterate, readWord_xor, readWord_zext64]

/-- The closed form, from any register (R108). -/
theorem mk_readWord_scan (r : Word) (d : List Byte) :
    mk genPoly (readWord (scan r d)) = mk genPoly (readWord r * X ^ (8 * d.length) + readMessage d * X ^ 64) := by
  induction d generalizing r with
  | nil => simp [readMessage]
  | cons b d ih =>
    rw [scan_cons, ih, map_add, map_mul, mk_readWord_advance, ← map_mul, ← map_add, readMessage, List.length_cons]
    exact congrArg _ (by ring)

theorem readMessage_zeros (n : Nat) : readMessage (zeros n) = 0 := by
  induction n with
  | zero => rfl
  | succ n ih => rw [zeros, List.replicate_succ, readMessage, ← zeros, ih, readByte_zero, zero_mul, add_zero]

/-- Settles O35: eight one-bit steps multiply by `x^8` in the quotient ring. -/
theorem scalarStepperIsPolynomialReduction : Obligations.ScalarStepperIsPolynomialReduction :=
  fun r b => readWord_eq_modByMonic (mk_readWord_advance r b)

/-- Settles O38: the closed form over a message that reads as 0. -/
theorem zeroBytesMultiplyByAPower : Obligations.ZeroBytesMultiplyByAPower := by
  intro r n
  apply readWord_eq_modByMonic
  rw [mk_readWord_scan, readMessage_zeros, zero_mul, add_zero, zeros, List.length_replicate]

/-- CHECKSUM of a live slot (R200). -/
theorem exec_checksum_of_live {c : Nat} {s : State} (h : SlotLive c s) :
    exec (.checksum c) s = .next (complete .ok (some ((slotAt c s).reg ^^^ xorOut)) none s) := by
  rw [exec, execChecksum, (checkCtx_eq_none_iff c s).2 h, orRaise_none]

/-- Settles O36: the closed form from `INIT`, and CHECKSUM of a live slot. -/
theorem checksumHasTheClosedForm : Obligations.ChecksumHasTheClosedForm := by
  intro d s c hlive hreg
  refine ⟨readWord_eq_modByMonic ?_, _, exec_checksum_of_live hlive, rfl⟩
  rw [hreg, mk_readWord_scan]

/-! ### Linearity (R109) -/

theorem zext64_xor (b c : Byte) : zext64 (b ^^^ c) = zext64 b ^^^ zext64 c := BitVec.setWidth_xor

theorem advance_xor (r q : Word) (b c : Byte) : advance (r ^^^ q) (b ^^^ c) = advance r b ^^^ advance q c := by
  have hsum : (r ^^^ q) ^^^ zext64 (b ^^^ c) = (r ^^^ zext64 b) ^^^ (q ^^^ zext64 c) := by
    rw [zext64_xor]
    ac_rfl
  rw [advance_eq, hsum, step1_iterate_xor, ← advance_eq, ← advance_eq]

theorem scan_xor (r q : Word) (d e : List Byte) (h : d.length = e.length) :
    scan (r ^^^ q) (List.zipWith (· ^^^ ·) d e) = scan r d ^^^ scan q e := by
  induction d generalizing r q e with
  | nil =>
    obtain rfl := List.eq_nil_of_length_eq_zero h.symm
    rfl
  | cons b d ih =>
    obtain ⟨c, e, rfl⟩ := List.exists_cons_of_length_eq_add_one h.symm
    rw [List.zipWith_cons_cons, scan_cons, advance_xor, ih _ _ e (Nat.succ.inj h), scan_cons, scan_cons]

theorem zipWith_xor_zeros (d : List Byte) : List.zipWith (· ^^^ ·) (zeros d.length) d = d := by
  induction d with
  | nil => rfl
  | cons b d ih => rw [List.length_cons, zeros, List.replicate_succ, List.zipWith_cons_cons, ← zeros, ih, BitVec.zero_xor]

/-- Settles O37: the third law is the second at `r` and 0, over zeros and `d`. -/
theorem scanIsLinear : Obligations.ScanIsLinear := by
  refine ⟨advance_xor, scan_xor, fun r d => ?_⟩
  rw [← scan_xor r 0#64 (zeros d.length) d List.length_replicate, zipWith_xor_zeros, BitVec.xor_zero]

/-! ### The carry-less product (R107) -/

/-- The XOR of the bits `f 0` to `f (n - 1)`. -/
def xorUpTo (n : Nat) (f : Nat → Bool) : Bool := (List.range n).foldl (fun acc i => acc ^^ f i) false

theorem xorUpTo_succ (n : Nat) (f : Nat → Bool) : xorUpTo (n + 1) f = (xorUpTo n f ^^ f n) := by
  rw [xorUpTo, List.range_succ, List.foldl_append]
  rfl

theorem xorUpTo_congr {n : Nat} {f g : Nat → Bool} (h : ∀ i < n, f i = g i) : xorUpTo n f = xorUpTo n g :=
  List.foldl_ext _ _ _ fun acc i hi => by rw [h i (List.mem_range.1 hi)]

/-- Terms that are all 0 do not count. -/
theorem xorUpTo_eq_of_zero {m n : Nat} {f : Nat → Bool} (hmn : m ≤ n) (h : ∀ i, m ≤ i → i < n → f i = false) :
    xorUpTo n f = xorUpTo m f := by
  induction n, hmn using Nat.le_induction with
  | base => rfl
  | succ n hmn ih =>
    rw [xorUpTo_succ, h n hmn n.lt_succ_self, Bool.xor_false, ih fun i hi hin => h i hi (Nat.lt_succ_of_lt hin)]

/-- What bit `i` of `a` adds to bit `k` of the product of `a` and `b`. -/
def productTerm (a b : Word) (k i : Nat) : Bool := a.getLsbD i && (decide (i ≤ k) && b.getLsbD (k - i))

theorem productTerm_of_le (a b : Word) {k i : Nat} (h : i ≤ k) :
    productTerm a b k i = (a.getLsbD i && b.getLsbD (k - i)) := by
  simp [productTerm, h]

theorem productTerm_of_gt (a b : Word) {k i : Nat} (h : k < i) : productTerm a b k i = false := by
  simp [productTerm, h]

theorem productTerm_of_ge_width (a b : Word) (k : Nat) {i : Nat} (h : 64 ≤ i) : productTerm a b k i = false := by
  rw [productTerm, BitVec.getLsbD_of_ge a i h, Bool.false_and]

/-- The first `n` shifted copies of `b`, bit by bit. -/
theorem getLsbD_clmul_partial (a b : Word) {k : Nat} (hk : k < 128) (n : Nat) :
    ((List.range n).foldl (fun acc i => if a.getLsbD i then acc ^^^ (b.setWidth 128 <<< i) else acc) 0#128).getLsbD k =
      xorUpTo n (productTerm a b k) := by
  induction n with
  | zero => exact BitVec.getLsbD_zero
  | succ n ih =>
    rw [List.range_succ, List.foldl_append, xorUpTo_succ, ← ih]
    simp only [List.foldl_cons, List.foldl_nil, productTerm]
    cases a.getLsbD n with
    | false => simp
    | true => simp [hk, ← decide_not]

theorem getLsbD_clmul (a b : Word) {k : Nat} (hk : k < 128) : (clmul a b).getLsbD k = xorUpTo 64 (productTerm a b k) :=
  getLsbD_clmul_partial a b hk 64

/-- The sum over the bits of `a` and the sum over the indices up to `k` differ in zeros. -/
theorem xorUpTo_productTerm (a b : Word) (k : Nat) :
    xorUpTo 64 (productTerm a b k) = xorUpTo (k + 1) (productTerm a b k) := by
  rcases Nat.le_total (k + 1) 64 with h | h
  · exact xorUpTo_eq_of_zero h fun i hi _ => productTerm_of_gt a b hi
  · exact (xorUpTo_eq_of_zero h fun i hi _ => productTerm_of_ge_width a b k hi).symm

theorem getLsbD_clmul_127 (a b : Word) : (clmul a b).getLsbD 127 = false := by
  rw [getLsbD_clmul a b (by decide)]
  refine xorUpTo_eq_of_zero (Nat.zero_le 64) fun i _ hi => ?_
  rw [productTerm, BitVec.getLsbD_of_ge b (127 - i) (by omega), Bool.and_false, Bool.and_false]

/-- Settles O45: the product is the XOR of the shifted copies of `b`, whose bits `k` are the terms of the formula. -/
theorem carrylessProductBits : Obligations.CarrylessProductBits := by
  refine fun a b k hk => ⟨?_, getLsbD_clmul_127 a b⟩
  rw [getLsbD_clmul a b (by omega), xorUpTo_productTerm]
  exact xorUpTo_congr fun i hi => productTerm_of_le a b (Nat.lt_succ_iff.1 hi)

/-- Settles O46, by running the stepper over the nine bytes (R105). -/
theorem checkValueOfTheNineDigits : Obligations.CheckValueOfTheNineDigits := by
  unfold Obligations.CheckValueOfTheNineDigits
  decide +kernel

end Sys2Proof.Machine
end

section
/-! PROOFS. The table builder (R120 to R126): the laws of the entries it computes, when it computes them and that nothing but reset
touches them after, and TBL_READ, which shows them to the host. -/

namespace Sys2Proof.Machine

/-! ### The entries of the built tables (R121, R124) -/

theorem lookup_builtTables_eq (k : Fin 8) (b : Byte) :
    lookup builtTables k b = step1^[64] (zext64 b <<< (8 * k.val)) := by
  rw [lookup_builtTables, tableEntry, BitVec.ofNat_toNat, zext64]

/-- The first `8 * k` reductions only bring the byte down again. -/
theorem lookup_builtTables_eq_iterate (k : Fin 8) (b : Byte) :
    lookup builtTables k b = step1^[64 - 8 * k.val] (zext64 b) := by
  have hk : k.val ≤ 7 := Nat.le_of_lt_succ k.isLt
  have hfit : (zext64 b).toNat * 2 ^ (8 * k.val) < 2 ^ 64 := by
    have hle : 2 ^ (8 * k.val) ≤ 2 ^ 56 := Nat.pow_le_pow_right (by omega) (by omega)
    rw [zext64_toNat]
    calc b.toNat * 2 ^ (8 * k.val) ≤ 255 * 2 ^ 56 := Nat.mul_le_mul (Nat.le_of_lt_succ b.isLt) hle
      _ < 2 ^ 64 := by norm_num
  calc lookup builtTables k b
    _ = step1^[(64 - 8 * k.val) + 8 * k.val] (zext64 b <<< (8 * k.val)) := by
      rw [lookup_builtTables_eq, Nat.sub_add_cancel (by omega)]
    _ = step1^[64 - 8 * k.val] (zext64 b) := by
      rw [Function.iterate_add_apply, step1_iterate_shiftLeft _ _ hfit]

theorem advance_zero_byte (r : Word) : advance r 0#8 = step1^[8] r := by
  rw [advance_eq, zext64, BitVec.setWidth_zero, BitVec.xor_zero]

theorem advance_zero_register (b : Byte) : advance 0#64 b = step1^[8] (zext64 b) := by
  rw [advance_eq, BitVec.zero_xor]

/-- A zero byte is eight one-bit steps (R110). -/
theorem scan_zeros (n : Nat) (r : Word) : scan r (zeros n) = step1^[8 * n] r := by
  induction n generalizing r with
  | zero => rfl
  | succ n ih =>
    rw [zeros, List.replicate_succ, scan_cons, ← zeros, ih, advance_zero_byte, ← Function.iterate_add_apply, Nat.mul_succ]

/-- An entry is its byte followed by `7 - k` zero bytes (R124). -/
theorem lookup_builtTables_eq_scan (k : Fin 8) (b : Byte) :
    lookup builtTables k b = scan (advance 0#64 b) (zeros (7 - k.val)) := by
  rw [scan_zeros, advance_zero_register, ← Function.iterate_add_apply, lookup_builtTables_eq_iterate]
  congr 2
  omega

/-- Table 7 is the classic byte table (R124). -/
theorem lookup_builtTables_seven (b : Byte) : lookup builtTables 7 b = advance 0#64 b :=
  lookup_builtTables_eq_scan 7 b

/-- A word is its upper seven bytes and its low byte. -/
theorem shifted_xor_lowByte (r : Word) : ((r >>> 8) <<< 8) ^^^ zext64 (r.extractLsb' 0 8) = r := by
  refine BitVec.eq_of_getLsbD_eq fun i hi => ?_
  rw [BitVec.getLsbD_xor, BitVec.getLsbD_shiftLeft, BitVec.getLsbD_ushiftRight, zext64, BitVec.getLsbD_setWidth,
    BitVec.getLsbD_extractLsb']
  by_cases h8 : i < 8
  · simp [hi, h8]
  · simp [hi, h8, show 8 + (i - 8) = i by omega]

/-- The byte-at-a-time update: eight steps move the upper bytes down, and reduce the low byte by table 7. -/
theorem advance_zero_byte_eq_lookup (r : Word) :
    advance r 0#8 = (r >>> 8) ^^^ lookup builtTables 7 (r.extractLsb' 0 8) := by
  have hfit : (r >>> 8).toNat * 2 ^ 8 < 2 ^ 64 := by
    have := r.isLt
    rw [BitVec.toNat_ushiftRight, Nat.shiftRight_eq_div_pow]
    omega
  rw [lookup_builtTables_seven, advance_zero_register, advance_zero_byte]
  conv_lhs => rw [← shifted_xor_lowByte r]
  rw [step1_iterate_xor, step1_iterate_shiftLeft 8 _ hfit]

/-- The entry of the table below is one zero byte further (R124). -/
theorem lookup_builtTables_pred {j k : Fin 8} (b : Byte) (h : k.val = j.val + 1) :
    lookup builtTables j b = advance (lookup builtTables k b) 0#8 := by
  rw [advance_zero_byte, lookup_builtTables_eq_iterate, lookup_builtTables_eq_iterate, ← Function.iterate_add_apply]
  congr 2
  omega

theorem lookup_builtTables_zero (k : Fin 8) : lookup builtTables k 0#8 = 0#64 := by
  rw [lookup_builtTables_eq_iterate, zext64, BitVec.setWidth_zero, step1_iterate_zero]

theorem lookup_builtTables_xor (k : Fin 8) (b c : Byte) :
    lookup builtTables k (b ^^^ c) = lookup builtTables k b ^^^ lookup builtTables k c := by
  simp only [lookup_builtTables_eq_iterate, zext64_xor, step1_iterate_xor]

/-- The three entries R124 gives. -/
theorem lookup_builtTables_values :
    lookup builtTables 7 0x01#8 = 0x7f6ef0c830358979#64 ∧ lookup builtTables 7 0x80#8 = 0x9a6c9329ac4bc9b5#64 ∧
      lookup builtTables 0 0x01#8 = 0x21e9761e252621ac#64 := by
  simp only [lookup_builtTables_eq_iterate]
  decide +kernel

/-- Settles O41: an entry is its byte after `64 - 8 * k` one-bit steps, and a number of them is linear. -/
theorem tableEntriesObeyTheirLaws : Obligations.TableEntriesObeyTheirLaws := by
  refine ⟨lookup_builtTables_seven, lookup_builtTables_eq_scan, fun j k b h => ?_,
    fun k b c => ⟨lookup_builtTables_zero k, lookup_builtTables_xor k b c⟩, lookup_builtTables_values⟩
  rw [lookup_builtTables_pred b h, advance_zero_byte_eq_lookup]

/-! ### TBL_READ (R125) -/

/-- The operation codes without a CTX field are those of the commands without a slot. -/
theorem opcOf_mem_plainOpcodes {i : Instr} (h : i.slot? = none) :
    opcOf i ∈ [0x00#8, 0x01#8, 0x10#8, 0x11#8, 0x12#8] := by
  cases i with
  | nop | create | stepByte | stepWord | tblRead => decide
  | append | appendImm | checksum | getreg | destroy => cases h

theorem encode_plain {i : Instr} (h : i.slot? = none) : encode i = zextOpc (opcOf i) := by
  rw [encode, ctxOf, h]
  simp [zext64, zextOpc]

/-- A command without a slot is its operation code alone (R81, R83, R84). -/
theorem encodedPlain {i : Instr} (h : i.slot? = none) : EncodedPlain i (opcOf i) := by
  have hwf : i.wellFormed = true := by simp [Instr.wellFormed, h]
  refine ⟨encode_plain h ▸ decode_encode hwf, fun w hopc hne => (decode_error_iff w).2 fun hrow => hne ?_⟩
  obtain ⟨-, hrsv, hctx⟩ := (exists_rowMatches_iff w).1 hrow
  have hc : ctxField w = 0#8 := hctx (hopc ▸ opcOf_mem_plainOpcodes h)
  rw [← encode_plain h, word_eq_iff, opcField_encode, ctxField_encode, rsvField_encode, ctxOf, h]
  exact ⟨hopc, hc, hrsv⟩

theorem tblReadArgError_of_entry {L : Latch} {k : Fin 8} {b : Byte} (h0 : L.a0.toNat = k.val) (h1 : L.a1.toNat = b.toNat) :
    tblReadArgError L = none := by
  have := k.isLt
  have := b.isLt
  rw [tblReadArgError, if_neg (by omega)]

theorem tblReadTable_of_entry {L : Latch} {k : Fin 8} (h0 : L.a0.toNat = k.val) : tblReadTable L = k := by
  rw [tblReadTable, h0]
  exact Fin.ofNat_val_eq_self k

theorem tblReadIndex_of_entry {L : Latch} {b : Byte} (h1 : L.a1.toNat = b.toNat) : tblReadIndex L = b := by
  apply BitVec.eq_of_toNat_eq
  rw [tblReadIndex, byteAt, BitVec.extractLsb'_toNat, Nat.mul_zero, Nat.shiftRight_zero, h1, Nat.mod_eq_of_lt b.isLt]

/-- TBL_READ with its operands in range (R125). -/
theorem exec_tblRead_entry {s : State} {L : Latch} {k : Fin 8} {b : Byte} (hL : s.inflight = some L)
    (h0 : L.a0.toNat = k.val) (h1 : L.a1.toNat = b.toNat) :
    exec .tblRead s = .next { ended .ok s with result := lookup s.tables k b } := by
  rw [exec, execTblRead, operandLatch_of_inflight s L hL]
  simp only [tblReadArgError_of_entry h0 h1, tblReadTable_of_entry h0, tblReadIndex_of_entry h1, orRaise_none]
  rfl

/-- TBL_READ with an operand out of range (R125). -/
theorem exec_tblRead_badArg {s : State} {L : Latch} (hL : s.inflight = some L) (h : L.a0.toNat > 7 ∨ L.a1.toNat > 255) :
    exec .tblRead s = .next (ended .badArg s) := by
  rw [exec, execTblRead, operandLatch_of_inflight s L hL]
  simp only [tblReadArgError, if_pos h, orRaise_some, raiseError_eq, ended]

/-- A host's write of `CMD` while the engine is busy is dropped (R191). -/
theorem step_cmd_dropped {s : State} {v : Word} {rest : List Event} (hbusy : s.busy = true)
    (h : s.events = .hostWrite (regBase s.params + 0x58#64) 8 v :: rest) :
    step s = .next { s with events := rest, overrun := true, accessed := true, reply := some .written } := by
  have hissue : regWrite .cmd v { s with events := rest } = { s with events := rest, overrun := true } := by
    rw [regWrite, issueCommand]
    exact if_pos hbusy
  rw [writesAs_register .cmd s v rest h, hissue]

/-- Until the tables are ready the builder keeps the engine busy (R28, R41). -/
theorem EngineInv.busy_of_not_ready {s : State} (hs : EngineInv s) (h : s.tblReady = false) : s.busy = true := by
  refine hs.busy_iff.2 (.inr ?_)
  cases hb : s.builder with
  | running => rfl
  | done => cases h.symm.trans (hs.ready_iff.2 hb)

/-- Settles O18: the operands in range name the entry itself, and the entry of a built table is that of R121. -/
theorem tblReadReadsOneEntry : Obligations.TblReadReadsOneEntry := by
  refine ⟨fun s L k b hL h0 h1 => exec_tblRead_entry hL h0 h1, fun s L k b hL ht h0 h1 => ?_,
    fun s L hL h => exec_tblRead_badArg hL h, encodedPlain (i := .tblRead) rfl,
    fun s rest hs hr he => step_cmd_dropped (hs.busy_of_not_ready hr) he⟩
  rw [exec_tblRead_entry hL h0 h1, ht, lookup_builtTables_eq, zext64]

/-! ### A turn of the running builder (R122) -/

theorem engineRun_running {s : State} (hb : s.builder = .running) : engineRun s = .next (builderTurn s) := by
  rw [engineRun, hb]

theorem engineUnit_running {s : State} (hb : s.builder = .running) : engineUnit s = .next (builderTurn s) := by
  rw [engineUnit, hb]

/-- An engine event is a turn of the builder while it runs. -/
theorem step_engine_running {s : State} {rest : List Event} (hb : s.builder = .running)
    (h : s.events = .engineRun :: rest ∨ s.events = .engineUnit :: rest) :
    step s = .next (builderTurn { s with events := rest }) := by
  rcases h with h | h
  · exact (step_event _ _ s h).trans (engineRun_running hb)
  · exact (step_event _ _ s h).trans (engineUnit_running hb)

theorem step_no_event_running {s : State} (hb : s.builder = .running) (h : s.events = []) :
    step s = .next (builderTurn s) :=
  (step_no_event s h).trans (engineRun_running hb)

theorem builderTurn_waits {s : State} (h : s.accessed = false) : builderTurn s = s :=
  if_neg (Bool.eq_false_iff.1 h)

theorem builderTurn_finishes {s : State} (h : s.accessed = true) : builderTurn s = finishBuild s :=
  if_pos h

/-! ### Nothing but reset undoes the build (R122, R123) -/

/-- What the builder leaves: its own progress, the table store and `TBL_READY`. -/
def buildState (s : State) : BuilderProgress × Tables × Bool := (s.builder, s.tables, s.tblReady)

section Frame

variable {s t : State}

theorem buildState_exec {i : Instr} (h : exec i s = .next t) : buildState t = buildState s := by
  cases exec_end h with
  | raised | succeeded | unanswered => rfl

theorem buildState_runWord {w : Word} (h : runWord w s = .next t) : buildState t = buildState s := by
  cases hd : decode w with
  | ok i => exact buildState_exec (runWord_ok w i s hd ▸ h)
  | error e =>
    obtain rfl := Host.Outcome.next.inj (runWord_error w e s hd ▸ h)
    rfl

theorem buildState_consumeUnit (c : Nat) (L : Latch) (n : Nat) (o : RangeOutcome) (s : State) :
    buildState (consumeUnit c L n o s) = buildState s := by
  cases o with
  | silent | busFault | bytes => rfl

theorem buildState_runWordUnit {L : Latch} (hL : s.inflight = some L) (h : runWordUnit L.w s = .next t) :
    buildState t = buildState s := by
  unfold runWordUnit at h
  split at h
  · split at h
    · next u hu =>
      obtain rfl := Host.Outcome.next.inj h
      obtain ⟨c, -, -, -, rfl⟩ := commandUnit_eq_some hL hu
      exact buildState_consumeUnit c L _ _ s
    · exact buildState_exec h
  · obtain rfl := Host.Outcome.next.inj h
    rfl

theorem buildState_engineRun (hb : s.builder = .done) (h : engineRun s = .next t) : buildState t = buildState s := by
  cases hL : s.inflight with
  | none => rw [Host.Outcome.next.inj ((engineRun_idle hb hL).symm.trans h)]
  | some L => exact buildState_runWord ((engineRun_inflight s L hb hL).symm.trans h)

theorem buildState_engineUnit (hb : s.builder = .done) (h : engineUnit s = .next t) : buildState t = buildState s := by
  cases hL : s.inflight with
  | none =>
    rw [engineUnit, hb, hL] at h
    rw [Host.Outcome.next.inj h]
  | some L => exact buildState_runWordUnit hL ((engineUnit_inflight s L hb hL).symm.trans h)

theorem buildState_regWrite (r : Reg) (v : Word) (s : State) : buildState (regWrite r v s) = buildState s := by
  cases r with
  | cmd => rcases issueCommand_cases v s with ⟨-, e⟩ | ⟨-, e⟩ <;> rw [regWrite, e] <;> rfl
  | status =>
    rw [regWrite_status]
    rfl
  | id | version | cap | pWidth | pPoly | pInit | pXorout | pFlags | pCheck | ctrl | arg0 | arg1 | result => rfl

theorem buildState_hostRead (a : Word) (n : Nat) (s : State) : buildState (hostRead a n s) = buildState s := by
  unfold hostRead
  split <;> rfl

theorem buildState_hostWriteEffect (off : Nat) (v : Word) (s : State) :
    buildState (hostWriteEffect off v s) = buildState s := by
  unfold hostWriteEffect
  split
  · exact buildState_regWrite _ v s
  · rfl

theorem buildState_hostWrite (a : Word) (n : Nat) (v : Word) (s : State) :
    buildState (hostWrite a n v s) = buildState s := by
  unfold hostWrite
  split
  · exact buildState_hostWriteEffect _ v s
  · rfl
  · rfl

theorem buildState_takeEvent {e : Event} (hb : s.builder = .done) (he : e ≠ .reset) (h : takeEvent e s = .next t) :
    buildState t = buildState s := by
  cases e with
  | reset => exact absurd rfl he
  | hostRead a n => exact Host.Outcome.next.inj h ▸ buildState_hostRead a n s
  | hostWrite a n v => exact Host.Outcome.next.inj h ▸ buildState_hostWrite a n v s
  | memStore a b =>
    obtain rfl := Host.Outcome.next.inj h
    rfl
  | engineUnit => exact buildState_engineUnit hb h
  | engineRun => exact buildState_engineRun hb h

/-- Once the builder is done every step but a reset keeps what it built. -/
theorem buildState_step (hb : s.builder = .done) (hr : ∀ rest, s.events ≠ .reset :: rest) (h : step s = .next t) :
    buildState t = buildState s := by
  cases he : s.events with
  | nil => exact buildState_engineRun hb ((step_no_event s he).symm.trans h)
  | cons e rest =>
    have hne : e ≠ .reset := fun h' => hr rest (h' ▸ he)
    exact buildState_takeEvent (s := { s with events := rest }) hb hne ((step_event e rest s he).symm.trans h)

end Frame

/-- Settles O33: a turn of the builder waits or finishes, and no other step writes what it built. -/
theorem builderFillsTheTablesOnce : Obligations.BuilderFillsTheTablesOnce := by
  refine ⟨fun s rest hb ha => ⟨fun he => ?_, fun he => ?_⟩, fun s rest he hb ha => ?_, fun s t hb hr h => ?_⟩
  · rw [step_no_event_running hb he, builderTurn_waits ha]
  · exact (step_engine_running hb he).trans (congrArg _ (builderTurn_waits ha))
  · have hturn : ∃ u : State, u.accessed = true ∧ step s = .next (builderTurn u) := by
      rcases he with he | he
      · exact ⟨s, ha, step_no_event_running hb he⟩
      · exact ⟨{ s with events := rest }, ha, step_engine_running hb he⟩
    obtain ⟨u, hu, hstep⟩ := hturn
    exact ⟨finishBuild u, hstep.trans (congrArg _ (builderTurn_finishes hu)), rfl, rfl, rfl, lookup_builtTables_eq⟩
  · obtain ⟨hbuilder, htables, hready⟩ : t.builder = s.builder ∧ t.tables = s.tables ∧ t.tblReady = s.tblReady := by
      simpa [buildState] using buildState_step hb hr h
    exact ⟨hbuilder.trans hb, htables, hready⟩

/-! ### The first access after reset (R122, R281) -/

/-- `STATUS` with `TBL_READY` and `OVERRUN` alone (R28). -/
theorem statusWord_ready_overrun {s : State} (hb : s.busy = false) (hr : s.tblReady = true) (ho : s.overrun = true)
    (he : s.errcode = .ok) : statusWord s = 0x6#64 := by
  rw [statusWord, hb, hr, ho, he]
  rfl

/-- The engine after reset once a `CMD` write was dropped, before the builder's next turn. -/
def resetThenDropped : State := { State.reset with overrun := true, accessed := true, reply := some .written }

theorem slotAt_resetThenDropped_live (c : Nat) : (slotAt c (finishBuild resetThenDropped)).live = false := by
  have hslots : (finishBuild resetThenDropped).slots = (resetEngine State.reset).slots := rfl
  rw [slotAt, hslots]
  exact slotAt_resetEngine_live c State.reset

/-- From reset, two turns of the engine with a write of `CMD` between them (R122, R281). -/
theorem run_reset_cmd {e : Event} {v : Word} (he : e = .hostWrite (regBase State.reset.params + 0x58#64) 8 v) :
    Host.Core.run Sys2Proof.core 3 (withEvents [.engineRun, e, .engineRun] State.reset) =
      .next (finishBuild resetThenDropped) := by
  have hwait : step (withEvents [.engineRun, e, .engineRun] State.reset) = .next (withEvents [e, .engineRun] State.reset) :=
    (step_engine_running rfl (.inl rfl)).trans (congrArg _ (builderTurn_waits rfl))
  have hdrop : step (withEvents [e, .engineRun] State.reset) = .next (withEvents [.engineRun] resetThenDropped) := by
    rw [he]
    exact step_cmd_dropped rfl rfl
  have hbuild : step (withEvents [.engineRun] resetThenDropped) = .next (finishBuild resetThenDropped) :=
    (step_engine_running rfl (.inl rfl)).trans (congrArg _ (builderTurn_finishes rfl))
  rw [run_step 2 _ _ hwait, run_step 1 _ _ hdrop, run_step 0 _ _ hbuild, run_zero]

/-- Settles O34: the builder waits, the write finds the engine busy, and it lets the builder finish. -/
theorem firstCommandAfterResetIsDropped : Obligations.FirstCommandAfterResetIsDropped := fun _ =>
  ⟨finishBuild resetThenDropped, run_reset_cmd rfl, statusWord_ready_overrun rfl rfl rfl rfl, rfl,
    slotAt_resetThenDropped_live⟩

end Sys2Proof.Machine
end

section
/-! PROOFS. The scalar stepper (R140 to R146): what it does over a concatenation, its form by table 7, and STEP_BYTE, which shows it
to the host. -/

namespace Sys2Proof.Machine

/-! ### The scalar stepper over a concatenation (R143) -/

theorem scan_append (r : Word) (d e : List Byte) : scan r (d ++ e) = scan (scan r d) e := by
  induction d generalizing r with
  | nil => rfl
  | cons b d ih => rw [List.cons_append, scan_cons, scan_cons, ih]

/-- Settles O39: the register after `d` is the one `e` starts from. -/
theorem scanComposes : Obligations.ScanComposes := scan_append

/-! ### The table-driven form (R144) -/

/-- A byte enters the register's low 8 bits before the first reduction, so its step is the zero byte's step after that. -/
theorem advance_eq_advance_zero_byte (r : Word) (b : Byte) : advance r b = advance (r ^^^ zext64 b) 0#8 := by
  rw [advance_zero_byte, advance_eq]

theorem zext64_ushiftRight (b : Byte) : zext64 b >>> 8 = 0#64 := by
  apply BitVec.eq_of_toNat_eq
  rw [BitVec.toNat_ushiftRight, zext64_toNat, Nat.shiftRight_eq_zero _ _ b.isLt]
  rfl

/-- The byte does not reach the bits that are shifted down: table 7 reduces all of it. -/
theorem advance_eq_lookup (r : Word) (b : Byte) :
    advance r b = (r >>> 8) ^^^ lookup builtTables 7 ((r ^^^ zext64 b).extractLsb' 0 8) := by
  rw [advance_eq_advance_zero_byte, advance_zero_byte_eq_lookup, BitVec.ushiftRight_xor_distrib, zext64_ushiftRight,
    BitVec.xor_zero]

/-- Settles O40, from the byte-at-a-time update of the register the byte was XORed into. -/
theorem scalarStepByTable : Obligations.ScalarStepByTable := advance_eq_lookup

/-! ### STEP_BYTE (R145) -/

/-- STEP_BYTE with a byte in `a1` (R145). -/
theorem exec_stepByte_byte {s : State} {L : Latch} (hL : s.inflight = some L) (h : L.a1.toNat ≤ 0xFF) :
    exec .stepByte s = .next { ended .ok s with result := advance L.a0 (L.a1.extractLsb' 0 8) } := by
  have hnone : stepByteArgError L = none := if_neg (Nat.not_lt.2 h)
  rw [exec, execStepByte, operandLatch_of_inflight s L hL]
  simp only [hnone, orRaise_none]
  rfl

/-- STEP_BYTE with more than a byte in `a1` (R145). -/
theorem exec_stepByte_badArg {s : State} {L : Latch} (hL : s.inflight = some L) (h : L.a1.toNat > 0xFF) :
    exec .stepByte s = .next (ended .badArg s) := by
  have hbad : stepByteArgError L = some .badArg := if_pos h
  rw [exec, execStepByte, operandLatch_of_inflight s L hL]
  simp only [hbad, orRaise_some, raiseError_eq, ended]

/-- Settles O16: the argument check splits on `a1` alone, and behind it stands one scalar step; the corner values and the example
of R145 are run. -/
theorem stepByteAdvancesOneByte : Obligations.StepByteAdvancesOneByte := by
  refine ⟨fun _ _ => exec_stepByte_byte, fun _ _ => exec_stepByte_badArg, encodedPlain (i := .stepByte) rfl, ?_⟩
  decide +kernel

end Sys2Proof.Machine
end

section
/-! PROOFS. The bulk stepper (R160 to R171): a lane step is eight scalar steps, so no routing of an append changes its value; the
fold identity; STEP_WORD; and that no result depends on `CTRL`, `LANES` or `HAS_CLMUL`. -/

namespace Sys2Proof.Machine

/-! ### The fold identity (R171) -/

/-- The register and the bytes contribute to the result apart from each other (R109). -/
theorem scan_eq_scan_zeros_xor (r : Word) (d : List Byte) : scan r d = scan r (zeros d.length) ^^^ scan 0#64 d := by
  obtain ⟨-, -, hsplit⟩ := scanIsLinear
  exact hsplit r d

/-- Settles O44: the bytes `e` split off from the register after `d`, and zero bytes multiply by a power of `x`. -/
theorem foldIdentity : Obligations.FoldIdentity := by
  refine ⟨fun r d e => ?_, zeroBytesMultiplyByAPower⟩
  rw [scan_append, scan_eq_scan_zeros_xor]

/-! ### A lane step is eight scalar steps (R164) -/

/-- The first of `8 - k` bytes contributes its entry of table `k`. -/
theorem scan_zero_cons (k : Fin 8) (b : Byte) (d : List Byte) (h : d.length = 7 - k.val) :
    scan 0#64 (b :: d) = lookup builtTables k b ^^^ scan 0#64 d := by
  rw [scan_cons, scan_eq_scan_zeros_xor, h, lookup_builtTables_eq_scan]

/-- The eight lookups are the contributions of the eight bytes of `r ^ w`. -/
theorem wordStep_eq_scan_zero (r w : Word) : wordStep builtTables r w = scan 0#64 (lowBytes (r ^^^ w) 8) := by
  have hbytes (x : Word) : lowBytes x 8 =
      [byteAt x 0, byteAt x 1, byteAt x 2, byteAt x 3, byteAt x 4, byteAt x 5, byteAt x 6, byteAt x 7] := rfl
  rw [hbytes, scan_zero_cons 0 _ _ rfl, scan_zero_cons 1 _ _ rfl, scan_zero_cons 2 _ _ rfl, scan_zero_cons 3 _ _ rfl,
    scan_zero_cons 4 _ _ rfl, scan_zero_cons 5 _ _ rfl, scan_zero_cons 6 _ _ rfl, scan_zero_cons 7 _ _ rfl, scan_nil]
  simp only [wordStep, BitVec.xor_assoc, BitVec.xor_zero]

/-- A register that meets its own low byte only shifts. -/
theorem advance_own_byte (r : Word) : advance r (byteAt r 0) = r >>> 8 := by
  have hlow : (r ^^^ zext64 (byteAt r 0)).extractLsb' 0 8 = 0#8 := by
    refine BitVec.eq_of_getLsbD_eq fun i hi => ?_
    simp [byteAt, zext64, hi, show i < 64 by omega]
  rw [advance_eq_lookup, hlow, lookup_builtTables_zero, BitVec.xor_zero]

/-- Byte `j` of a word moved down by a byte is byte `j + 1`. -/
theorem byteAt_ushiftRight (r : Word) (j : Nat) : byteAt (r >>> 8) j = byteAt r (j + 1) := by
  refine BitVec.eq_of_getLsbD_eq fun i hi => ?_
  simp only [byteAt, BitVec.getLsbD_extractLsb', BitVec.getLsbD_ushiftRight]
  congr 2
  omega

theorem lowBytes_succ (r : Word) (n : Nat) : lowBytes r (n + 1) = byteAt r 0 :: lowBytes (r >>> 8) n := by
  simp [lowBytes, List.range_succ_eq_map, byteAt_ushiftRight]

/-- A register that meets its own bytes shifts out. -/
theorem scan_own_bytes (n : Nat) (r : Word) : scan r (lowBytes r n) = r >>> (8 * n) := by
  induction n generalizing r with
  | zero => exact (BitVec.ushiftRight_zero r).symm
  | succ n ih => rw [lowBytes_succ, scan_cons, advance_own_byte, ih, ← BitVec.shiftRight_add, Nat.mul_succ, Nat.add_comm]

/-- Of the whole word nothing is left. -/
theorem scan_own_word (r : Word) : scan r (lowBytes r 8) = 0#64 :=
  (scan_own_bytes 8 r).trans (BitVec.ushiftRight_eq_zero le_rfl)

theorem lowBytes_xor (r w : Word) (n : Nat) :
    lowBytes (r ^^^ w) n = List.zipWith (· ^^^ ·) (lowBytes r n) (lowBytes w n) := by
  simp [lowBytes, byteAt, List.zipWith_map, BitVec.extractLsb'_xor]

/-- From `r`, the bytes of `w` are those of `r`, which shift `r` out, beside those of `r ^ w` from 0. -/
theorem wordStep_eq_scan (r w : Word) : wordStep builtTables r w = scan r (lowBytes w 8) := by
  have hcancel : r ^^^ (r ^^^ w) = w := by rw [← BitVec.xor_assoc, BitVec.xor_self, BitVec.zero_xor]
  calc wordStep builtTables r w
    _ = scan r (lowBytes r 8) ^^^ scan 0#64 (lowBytes (r ^^^ w) 8) := by
      rw [scan_own_word, BitVec.zero_xor, wordStep_eq_scan_zero]
    _ = scan r (lowBytes w 8) := by
      rw [← scan_xor r 0#64 _ _ (by simp [lowBytes]), ← lowBytes_xor, hcancel, BitVec.xor_zero]

/-! ### Blocks and whole ranges (R160, R163, R165) -/

/-- Eight bytes come back from the lane they make (R162). -/
theorem lowBytes_le64 {d : List Byte} (h : d.length = 8) : lowBytes (le64 d) 8 = d := by
  refine List.ext_getElem (by simp [lowBytes, h]) fun j _ hj => ?_
  simp only [lowBytes, List.getElem_map, List.getElem_range]
  refine BitVec.eq_of_getLsbD_eq fun i hi => ?_
  have hdiv : (8 * j + i) / 8 = j := by omega
  have hmod : (8 * j + i) % 8 = i := by omega
  rw [byteAt, BitVec.getLsbD_extractLsb', getLsbD_le64 d _ (by omega), hdiv, hmod, List.getD_eq_getElem _ _ hj]
  simp [hi]

/-- The contract of the bulk stepper, lane by lane (R160). -/
theorem advanceBlock_eq_scan (n : Nat) (r : Word) (d : List Byte) (h : d.length = 8 * n) :
    advanceBlock builtTables n r d = scan r d := by
  induction n generalizing r d with
  | zero =>
    obtain rfl := List.eq_nil_of_length_eq_zero h
    rfl
  | succ n ih =>
    calc advanceBlock builtTables (n + 1) r d
      _ = advanceBlock builtTables n (wordStep builtTables r (le64 (d.take 8))) (d.drop 8) := rfl
      _ = scan (scan r (d.take 8)) (d.drop 8) := by
        rw [ih _ _ (by simp; omega), wordStep_eq_scan, lowBytes_le64 (by simp; omega)]
      _ = scan r d := by rw [← scan_append, List.take_append_drop]

/-- Settles O42: the lanes of a block hold its bytes in order, and the fold path is the table path (R168). -/
theorem bulkStepperEqualsScalarStepper : Obligations.BulkStepperEqualsScalarStepper :=
  ⟨wordStep_eq_scan, fun n r d h => ⟨advanceBlock_eq_scan n r d h, advanceBlock_eq_scan n r d h⟩⟩

theorem bulkBlocks_eq_scan (n : Nat) (sel : Sel) (nb : Nat) (r : Word) (d : List Byte) (h : nb * (8 * n) ≤ d.length) :
    bulkBlocks builtTables n sel nb r d = scan r d := by
  induction nb generalizing r d with
  | zero => rfl
  | succ nb ih =>
    rw [Nat.succ_mul] at h
    rw [bulkBlocks_succ, ih _ _ (by simp; omega), advanceBlock_eq_scan n _ _ (by simp; omega), ← scan_append,
      List.take_append_drop]

/-- No routing of an append changes its value (R170). -/
theorem appendBytes_eq_scan (n : Nat) (sel : Sel) (r : Word) (d : List Byte) :
    appendBytes builtTables n sel r d = scan r d := by
  unfold appendBytes
  split
  · rfl
  · exact bulkBlocks_eq_scan n sel _ r d (Nat.div_mul_le_self ..)

/-- The bytes of an APPEND's range go through the scalar stepper, once the tables are built (R197). -/
theorem finishAppend_bytes_of_built {s : State} (ht : s.tables = builtTables) (c : Nat) (L : Latch) (d : List Byte) :
    finishAppend c L (.bytes d) s = complete .ok none (stageReg c (scan (workingReg c L s) d) s)
      (logReads L L.i (appendLength L - L.i) s) := by
  rw [finishAppend, ht, appendBytes_eq_scan]

/-- So do those of an APPEND_IMM (R199). -/
theorem exec_appendImm_of_built {s : State} (ht : s.tables = builtTables) (c : Nat) :
    exec (.appendImm c) s = .next (orRaise ((checkCtx c s).or (appendImmArgError (operandLatch s))) s
      (complete .ok none (stageReg c (scan (slotAt c s).reg (appendImmBytes (operandLatch s))) s) s)) := by
  rw [exec, execAppendImm, ht, appendBytes_eq_scan]

/-! ### STEP_WORD (R169) -/

theorem exec_stepWord {s : State} {L : Latch} (hL : s.inflight = some L) :
    exec .stepWord s = .next { ended .ok s with result := wordStep s.tables L.a0 L.a1 } := by
  rw [exec, execStepWord, operandLatch_of_inflight s L hL]
  rfl

/-- The corner values and the example of R169, run through the scalar stepper. -/
theorem wordStep_builtTables_values :
    wordStep builtTables 0#64 0x8000000000000000#64 = 0x9a6c9329ac4bc9b5#64 ∧
      wordStep builtTables 0#64 1#64 = 0x21e9761e252621ac#64 ∧
      wordStep builtTables 0xFFFFFFFFFFFFFFFF#64 0#64 = 0xf310303b2b6f6e42#64 ∧
      wordStep builtTables 0xFFFFFFFFFFFFFFFF#64 0x3837363534333231#64 = 0x132f6f673d376b6b#64 := by
  simp only [wordStep_eq_scan]
  decide +kernel

/-- Settles O17: behind STEP_WORD stands one lane step, which is eight scalar steps; a register that meets
itself shifts out. -/
theorem stepWordStepsOneLane : Obligations.StepWordStepsOneLane := by
  refine ⟨fun _ _ => exec_stepWord, fun s L hL ht => ?_, encodedPlain (i := .stepWord) rfl, fun r => ?_,
    wordStep_builtTables_values⟩
  · rw [exec_stepWord hL, ht, wordStep_eq_scan]
  · rw [wordStep_eq_scan, scan_own_word]

/-! ### No result depends on `CTRL`, `LANES` or `HAS_CLMUL` (R170) -/

/-- `s` with another selection in the latch, another number of lanes and another answer to whether the fold path is built. -/
def reroute (x : Sel) (m : Fin 255) (h : Bool) (s : State) : State :=
  { s with
    inflight := some { operandLatch s with sel := x }
    params := { s.params with lanesM1 := m, hasClmul := h } }

/-- What a command leaves behind: its code, `RESULT`, the slots and the reads it made. -/
def commandOutcome (s : State) : ErrCode × Word × Vector Slot 256 × List Word :=
  (s.errcode, s.result, s.slots, s.portReads)

/-- A command behind its checks leaves the same behind when it does in the error of the checks and past them. -/
theorem commandOutcome_orRaise (e : Option ErrCode) {s s' t t' : State} (hs : commandOutcome s' = commandOutcome s)
    (ht : commandOutcome t' = commandOutcome t) : commandOutcome (orRaise e s' t') = commandOutcome (orRaise e s t) := by
  cases e with
  | none => exact ht
  | some code =>
    obtain ⟨-, hresult, hslots, hreads⟩ : s'.errcode = s.errcode ∧ s'.result = s.result ∧ s'.slots = s.slots ∧
        s'.portReads = s.portReads := by simpa [commandOutcome] using hs
    simp [commandOutcome, hresult, hslots, hreads]

section Reroute

variable (x : Sel) (m : Fin 255) (h : Bool) (s : State)

/-- The reads of a range are those of the same addresses. -/
theorem readRange_reroute (i n : Nat) :
    readRange (operandLatch (reroute x m h s)) i n (reroute x m h s) = readRange (operandLatch s) i n s := by
  induction n generalizing i with
  | zero => rfl
  | succ n ih =>
    have hread : memRead (operandLatch (reroute x m h s)) i (reroute x m h s) = memRead (operandLatch s) i s := rfl
    rw [readRange, readRange, hread, ih]

variable {s}

theorem commandOutcome_finishAppend_reroute (ht : s.tables = builtTables) (c : Nat) (o : RangeOutcome) :
    commandOutcome (finishAppend c (operandLatch (reroute x m h s)) o (reroute x m h s)) =
      commandOutcome (finishAppend c (operandLatch s) o s) := by
  cases o with
  | silent | busFault => rfl
  | bytes d =>
    rw [finishAppend_bytes_of_built ht, finishAppend_bytes_of_built (s := reroute x m h s) ht]
    rfl

/-- The routing enters an APPEND and an APPEND_IMM alone, and there not the value. -/
theorem commandOutcome_exec_reroute {i : Instr} {t u : State} (ht : s.tables = builtTables) (hs : exec i s = .next t)
    (hr : exec i (reroute x m h s) = .next u) : commandOutcome u = commandOutcome t := by
  cases i
  case appendImm c =>
    rw [exec_appendImm_of_built ht] at hs
    rw [exec_appendImm_of_built (s := reroute x m h s) ht] at hr
    obtain rfl := Host.Outcome.next.inj hs
    obtain rfl := Host.Outcome.next.inj hr
    exact commandOutcome_orRaise _ rfl rfl
  all_goals
    obtain rfl := Host.Outcome.next.inj hs
    obtain rfl := Host.Outcome.next.inj hr
  case nop | stepWord => rfl
  case create =>
    have hfree : leastFree (reroute x m h s) = leastFree s := rfl
    rw [hfree]
    cases leastFree s <;> rfl
  case append c =>
    rw [readRange_reroute]
    exact commandOutcome_orRaise _ rfl (commandOutcome_finishAppend_reroute x m h ht c _)
  case checksum | getreg | destroy | stepByte | tblRead => exact commandOutcome_orRaise _ rfl rfl

end Reroute

/-- Settles O43: whatever the routing, an append steps through its bytes, and no other command has one. -/
theorem appendPathsAgreeWithScan : Obligations.AppendPathsAgreeWithScan := by
  refine ⟨fun n sel r d _ => appendBytes_eq_scan n sel r d, fun i s L x m h hL ht => ?_⟩
  obtain ⟨t, hs⟩ := exec_eq_next i s
  obtain ⟨u, hr⟩ := exec_eq_next i (reroute x m h s)
  refine ⟨t, u, hs, ?_, ?_⟩
  · rwa [reroute, operandLatch_of_inflight s L hL] at hr
  · simpa [commandOutcome] using commandOutcome_exec_reroute x m h ht hs hr

end Sys2Proof.Machine
end

section
/-! PROOFS. The step of the engine with a command in flight (R193, R198, R207): it runs the command its word decodes to, and the
small steps of an APPEND end where its atomic run ends. -/

namespace Sys2Proof.Machine

/-! ### What a turn of the engine runs -/

section Turn

variable {s t : State} {L : Latch} {i : Instr}

theorem engineRun_command (hb : s.builder = .done) (hL : s.inflight = some L) (hd : decode L.w = .ok i) :
    engineRun s = exec i s :=
  (engineRun_inflight s L hb hL).trans (runWord_ok L.w i s hd)

/-- With no small step left to take, the engine completes the command. -/
theorem engineUnit_complete (hb : s.builder = .done) (hL : s.inflight = some L) (hd : decode L.w = .ok i)
    (hu : commandUnit i s = none) : engineUnit s = exec i s := by
  rw [engineUnit_inflight s L hb hL, runWordUnit, hd]
  simp only [hu]

theorem engineUnit_small (hb : s.builder = .done) (hL : s.inflight = some L) (hd : decode L.w = .ok i)
    (hu : commandUnit i s = some t) : engineUnit s = .next t := by
  rw [engineUnit_inflight s L hb hL, runWordUnit, hd]
  simp only [hu]

/-- An illegal word ends the same in a small step as in a whole run (R84). -/
theorem engineUnit_illegal {e : DecodeError} (hb : s.builder = .done) (hL : s.inflight = some L)
    (hd : decode L.w = .error e) : engineUnit s = engineRun s := by
  rw [engineUnit_inflight s L hb hL, engineRun_inflight s L hb hL, runWordUnit, runWord, hd]

end Turn

/-- Settles O6: a step is the turn of the engine that its event asks for. -/
theorem stepRunsTheDecodedCommand : Obligations.StepRunsTheDecodedCommand := by
  intro s L i hb hL hd
  exact ⟨fun rest he => (step_event _ rest s he).trans (engineRun_command hb hL hd),
    fun he => (step_no_event s he).trans (engineRun_command hb hL hd),
    fun rest he hu => (step_event _ rest s he).trans (engineUnit_complete hb hL hd hu),
    fun rest t he hu => (step_event _ rest s he).trans (engineUnit_small hb hL hd hu)⟩

/-- The state with the engine's run of an accepted word next steps to the run's end (R193). -/
theorem step_accepted {s : State} {w : Word} {i : Instr} (hb : s.builder = .done) (hd : decode w = .ok i) :
    step { accept w s with events := .engineRun :: s.events } = exec i (accept w s) :=
  (step_event .engineRun s.events _ rfl).trans (engineRun_command (s := accept w s) hb rfl hd)

/-- Settles O7: `withFetchWord` accepts the word, after the builder where it still runs. -/
theorem fetchedWordRunsNext : Obligations.FetchedWordRunsNext := by
  intro s w i hd
  rw [State.withFetchWord, Nat.mod_eq_of_lt w.isLt, BitVec.ofNat_toNat, BitVec.setWidth_eq]
  cases hb : s.builder with
  | running => exact ⟨_, step_accepted (s := finishBuild { s with accessed := true }) rfl hd, rfl, rfl, rfl, rfl, rfl, rfl⟩
  | done => exact ⟨_, step_accepted hb hd, rfl, hb, rfl, rfl, rfl, rfl⟩

/-! ### One small step and the atomic run (R198) -/

section SmallSteps

variable {s t : State} {L : Latch} {i : Instr}

/-- The latch of an APPEND once `m` more bytes are consumed, with the register value `r` after them (R198). -/
def advanceLatch (m : Nat) (r : Word) (L : Latch) : Latch := { L with i := L.i + m, shadow := r }

/-- The state of an APPEND once `m` more bytes are read and consumed, with the register value `r` after them (R198). -/
def advanceAppend (m : Nat) (r : Word) (L : Latch) (s : State) : State :=
  { logReads L L.i m s with inflight := some (advanceLatch m r L) }

/-- With the tables built, a unit of bytes goes through the scalar stepper. -/
theorem consumeUnit_bytes (ht : s.tables = builtTables) (c m : Nat) (L : Latch) (d : List Byte) :
    consumeUnit c L m (.bytes d) s = advanceAppend m (scan (workingReg c L s) d) L s := by
  rw [consumeUnit, ht, appendBytes_eq_scan, advanceAppend, advanceLatch]

/-- The reads still to make are those of the same addresses in the same memory. -/
theorem readRange_advanceAppend (m : Nat) (r : Word) (L : Latch) (i n : Nat) (s : State) :
    readRange (advanceLatch m r L) i n (advanceAppend m r L s) = readRange L i n s := by
  induction n generalizing i with
  | zero => rfl
  | succ n ih =>
    have hread : memRead (advanceLatch m r L) i (advanceAppend m r L s) = memRead L i s := rfl
    rw [readRange, readRange, hread, ih]

/-- The reads before a cut and after it are those of the range without the cut, and a completion drops the latch. -/
theorem complete_logReads_advanceAppend (e : ErrCode) (g : Option (Nat × Slot)) (m n : Nat) (r : Word) (L : Latch)
    (s : State) :
    complete e none g (logReads (advanceLatch m r L) (L.i + m) n (advanceAppend m r L s)) =
      complete e none g (logReads L L.i (m + n) s) := by
  have haddr : rangeAddr (advanceLatch m r L) = rangeAddr L := rfl
  simp only [complete, logReads, advanceAppend, haddr, List.append_assoc, ← List.map_append, List.range'_append_1]

/-- An APPEND that passes its checks ends as the outcome of its range says (R197, R198). -/
theorem exec_append_of_checked {c : Nat} (hL : s.inflight = some L) (he : appendError c L s = none) :
    exec (.append c) s = .next (finishAppend c L (readRange L L.i (appendLength L - L.i) s) s) := by
  rw [exec_append c s L hL, ← orRaise_or, ← appendError, he, orRaise_none]

theorem finishAppend_bytes_advanceAppend (ht : s.tables = builtTables) (c : Nat) {m : Nat} (hm : m ≠ 0)
    (hlen : L.i + m ≤ appendLength L) (d e : List Byte) :
    finishAppend c (advanceLatch m (scan (workingReg c L s) d) L) (.bytes e)
        (advanceAppend m (scan (workingReg c L s) d) L s) =
      finishAppend c L (.bytes (d ++ e)) s := by
  have hi : L.i + m ≠ 0 := by omega
  have hall : m + (appendLength L - (L.i + m)) = appendLength L - L.i := by omega
  rw [finishAppend_bytes_of_built (s := advanceAppend _ _ L s) ht, finishAppend_bytes_of_built ht, scan_append, workingReg,
    if_neg (show (advanceLatch m _ L).i ≠ 0 from hi), ← hall]
  exact complete_logReads_advanceAppend ..

/-- With the tables built, an APPEND cut after a unit of its bytes goes on to where it would have gone without the cut: the reads
adjoin, and so do the bytes (R198, R207). -/
theorem exec_append_advanceAppend (ht : s.tables = builtTables) {c m : Nat} (hL : s.inflight = some L)
    (he : appendError c L s = none) (ha : RangeAnswered s L) (hm : m ≠ 0) (hlen : L.i + m ≤ appendLength L) {d : List Byte}
    (hd : readRange L L.i m s = .bytes d) :
    exec (.append c) (advanceAppend m (scan (workingReg c L s) d) L s) = exec (.append c) s := by
  have hall : appendLength L - L.i = m + (appendLength L - (L.i + m)) := by omega
  have hcut (r : Word) : exec (.append c) (advanceAppend m r L s) = .next (finishAppend c (advanceLatch m r L)
      (readRange L (L.i + m) (appendLength L - (L.i + m)) s) (advanceAppend m r L s)) :=
    (exec_append_of_checked (s := advanceAppend m r L s) rfl he).trans
      (congrArg (fun o => Host.Outcome.next (finishAppend c _ o _)) (readRange_advanceAppend m r L (L.i + m) _ s))
  rw [hcut, exec_append_of_checked hL he, hall, readRange_add, hd]
  rcases readRange_answered L (L.i + m) (appendLength L - (L.i + m)) s fun j _ hj => ha j (by omega) with
    ⟨e, hr, -⟩ | ⟨k, -, hr, -⟩ <;> simp only [hr]
  · rw [finishAppend_bytes_advanceAppend ht c hm hlen]
  · exact congrArg Host.Outcome.next (complete_logReads_advanceAppend .bus none m (k + 1) _ L s)

/-- A small step of an APPEND whose reads are answered ends it in `BUS`, as its run ends it; or it leaves it in flight, further
on, with the same run ahead. -/
theorem commandUnit_progress (hs : EngineInv s) (hb : s.builder = .done) (hL : s.inflight = some L)
    (ha : ReadsAnswered s L) (hd : decode L.w = .ok i) (hu : commandUnit i s = some t) :
    exec i s = .next t ∨
    ∃ M, t.inflight = some M ∧ EngineInv t ∧ ReadsAnswered t M ∧ decode M.w = .ok i ∧ t.builder = .done ∧
      appendLength M - M.i < appendLength L - L.i ∧ exec i t = exec i s := by
  obtain ⟨c, rfl, he, hi, rfl⟩ := commandUnit_eq_some hL hu
  obtain ⟨hpos, hlen⟩ := unitLength_bounds s.params L hi
  set m := unitLength s.params L
  have hr := ha c hd
  rcases readRange_answered L L.i m s fun j _ hj => hr j (by omega) with ⟨d, hread, -⟩ | ⟨k, -, hread, -⟩
  · have hinv := hs.consumeUnit hb hL hd he hlen (.bytes d)
    have ht := hs.tables_built hb
    rw [hread]
    rw [consumeUnit_bytes ht] at hinv ⊢
    refine .inr ⟨_, rfl, hinv, fun _ _ => hr, hd, hb, ?_,
      exec_append_advanceAppend ht hL he hr (Nat.one_le_iff_ne_zero.1 hpos) hlen hread⟩
    change appendLength L - (L.i + m) < _
    omega
  · left
    have hall : appendLength L - L.i = m + (appendLength L - (L.i + m)) := by omega
    rw [exec_append_of_checked hL he, hall, readRange_add, hread]
    rfl

/-! ### Small steps one after the other (R207) -/

/-- The small step depends on no event to come. -/
theorem commandUnit_withEvents (i : Instr) (es : List Event) (s : State) :
    commandUnit i (withEvents es s) = (commandUnit i s).map (withEvents es) := by
  cases i with
  | append c =>
    have hread (L : Latch) (n : Nat) : readRange L L.i n (withEvents es s) = readRange L L.i n s :=
      readRange_congr L L.i n s _ rfl rfl rfl rfl
    have hunit (L : Latch) (n : Nat) (o : RangeOutcome) :
        consumeUnit c L n o (withEvents es s) = withEvents es (consumeUnit c L n o s) := by
      cases o <;> rfl
    rw [commandUnit, commandUnit, appendUnit, appendUnit, apply_ite (Option.map (withEvents es)), Option.map_some, ← hunit,
      ← hread]
    rfl
  | nop | create | appendImm | checksum | getreg | destroy | stepByte | stepWord | tblRead => rfl

/-- One step of the machine is a run of length 1. -/
theorem run_one (s : State) : Host.Core.run Sys2Proof.core 1 s = step s := by
  cases h : step s with
  | next t => exact (run_step 0 s t h).trans (run_zero t)
  | fault r => cases r
  | refused r =>
    have h' : Sys2Proof.core.step s = .refused r := h
    have hrun := Host.Core.run.eq_2 Sys2Proof.core s 0
    rw [h'] at hrun
    exact hrun

/-- With a command in flight, some number of small steps goes where the engine's run goes: one more with each unit, until none is
left to take. -/
theorem run_engineUnits (hs : EngineInv s) (hb : s.builder = .done) (hL : s.inflight = some L) (ha : ReadsAnswered s L) :
    ∃ n, 1 ≤ n ∧ n ≤ appendLength L - L.i + 1 ∧
      Host.Core.run Sys2Proof.core n (withEvents (List.replicate n .engineUnit) s) = engineRun (withEvents [] s) := by
  induction hk : appendLength L - L.i using Nat.strong_induction_on generalizing s L with
  | _ k ih =>
    have hone (h : engineUnit (withEvents [] s) = engineRun (withEvents [] s)) : ∃ n, 1 ≤ n ∧ n ≤ k + 1 ∧
        Host.Core.run Sys2Proof.core n (withEvents (List.replicate n .engineUnit) s) = engineRun (withEvents [] s) :=
      ⟨1, le_rfl, by omega, (run_one _).trans ((step_event .engineUnit [] _ rfl).trans h)⟩
    cases hd : decode L.w with
    | error e => exact hone (engineUnit_illegal (s := withEvents [] s) hb hL hd)
    | ok i =>
      have hrun : engineRun (withEvents [] s) = exec i (withEvents [] s) := engineRun_command hb hL hd
      cases hu : commandUnit i s with
      | none =>
        have hnone : commandUnit i (withEvents [] s) = none := by rw [commandUnit_withEvents, hu, Option.map_none]
        exact hone ((engineUnit_complete (s := withEvents [] s) hb hL hd hnone).trans hrun.symm)
      | some t =>
        have hsome (es : List Event) : commandUnit i (withEvents es s) = some (withEvents es t) := by
          rw [commandUnit_withEvents, hu, Option.map_some]
        have hunit (es : List Event) : engineUnit (withEvents es s) = .next (withEvents es t) :=
          engineUnit_small (s := withEvents es s) hb hL hd (hsome es)
        rcases commandUnit_progress (hs.withEvents []) hb hL ha hd (hsome []) with
          hbus | ⟨M, hM, hinv, hans, hdM, hbt, hlt, hexec⟩
        · exact hone ((hunit []).trans (hbus.symm.trans hrun.symm))
        · obtain ⟨n, h1, hn, hgo⟩ := ih _ (hk ▸ hlt) hinv hbt hM hans rfl
          refine ⟨n + 1, by omega, by omega, ?_⟩
          have hfirst : Host.Core.run Sys2Proof.core (n + 1) (withEvents (List.replicate (n + 1) .engineUnit) s) =
              Host.Core.run Sys2Proof.core n (withEvents (List.replicate n .engineUnit) t) :=
            run_step n _ _ ((step_event .engineUnit _ _ rfl).trans (hunit (List.replicate n .engineUnit)))
          have hrest : engineRun (withEvents [] t) = engineRun (withEvents [] s) :=
            (engineRun_command hbt hM hdM).trans (hexec.trans hrun.symm)
          exact hfirst.trans (hgo.trans hrest)

end SmallSteps

/-- Settles O50: the small steps go where the engine's run goes, and the builder is done while a command is in flight. -/
theorem smallStepsEndWhereTheAtomicRunEnds : Obligations.SmallStepsEndWhereTheAtomicRunEnds := by
  intro s L hs hL ha
  have hb : s.builder = .done := by
    cases hb : s.builder with
    | done => rfl
    | running => cases hL.symm.trans (hs.running_idle hb)
  obtain ⟨n, h1, hn, hrun⟩ := run_engineUnits hs hb hL ha
  have hatomic : step (withEvents [.engineRun] s) = engineRun (withEvents [] s) := step_event .engineRun [] _ rfl
  exact ⟨n, h1, hn, hrun.trans (hatomic.symm.trans (run_one _).symm)⟩

end Sys2Proof.Machine
end

section
/-! PROOFS. The commands of the digest (R194 to R202), rule by rule: the check of the slot first, then what each command does on a
slot that is live. -/

namespace Sys2Proof.Machine

/-! ### The words of the commands with a slot (R81, R83) -/

/-- The word of a command with a slot as a number: the slot number above the operation code. -/
theorem encode_of_slot {i : Instr} {c : Nat} (hi : i.slot? = some c) (hc : c < 256) :
    encode i = BitVec.ofNat 64 (c * 256 + (opcOf i).toNat) := by
  have hopc := (opcOf i).isLt
  have hctx : (ctxOf i).toNat = c := ctxOf_toNat i c hi (by simpa [Instr.wellFormed, hi] using hc)
  apply BitVec.eq_of_toNat_eq
  rw [encode, BitVec.toNat_or, BitVec.toNat_shiftLeft, zext64_toNat, zext64_toNat, hctx, BitVec.toNat_ofNat,
    Nat.shiftLeft_eq, Nat.mod_eq_of_lt (by omega), Nat.mod_eq_of_lt (by omega), ← Nat.shiftLeft_eq,
    Nat.shiftLeft_add_eq_or_of_lt hopc]

theorem encodedWithSlot {f : Nat → Instr} {opc : Byte} (hslot : ∀ c, (f c).slot? = some c) (hopc : ∀ c, opcOf (f c) = opc) :
    EncodedWithSlot f opc := by
  refine ⟨fun c hc => ?_, fun w _ hrsv => (decode_error_iff w).2 fun hrow => ?_⟩
  · rw [← hopc c, ← encode_of_slot (hslot c) hc]
    exact decode_encode (by simpa [Instr.wellFormed, hslot] using hc)
  · obtain ⟨-, hzero, -⟩ := (exists_rowMatches_iff w).1 hrow
    exact hrsv hzero

/-! ### The check of the slot (R194) -/

/-- A command with a slot checks it before anything else. -/
theorem exec_of_slot {i : Instr} {c : Nat} (hi : i.slot? = some c) (s : State) :
    ∃ t, exec i s = .next (orRaise (checkCtx c s) s t) := by
  cases i <;> cases hi
  case append | appendImm => exact ⟨_, congrArg Host.Outcome.next (orRaise_or ..)⟩
  case checksum | getreg | destroy => exact ⟨_, rfl⟩

/-- The error of the context check is the end of the command (R241). -/
theorem exec_of_checkCtx {i : Instr} {c : Nat} {s : State} {e : ErrCode} (hi : i.slot? = some c)
    (he : checkCtx c s = some e) : exec i s = .next (ended e s) := by
  obtain ⟨t, ht⟩ := exec_of_slot hi s
  rw [ht, he, orRaise_some, raiseError_eq, ended]

/-- Settles O19: every command with a slot begins with the context check, which finds the one error or the other. -/
theorem everyContextCommandChecksItsSlot : Obligations.EveryContextCommandChecksItsSlot := by
  intro i c s hi
  refine ⟨fun hc => exec_of_checkCtx hi (if_pos hc), fun hc hl => exec_of_checkCtx hi ?_⟩
  rw [checkCtx, if_neg (Nat.not_le.2 hc), hl]
  rfl

theorem refusesDeadSlots {f : Nat → Instr} (hslot : ∀ c, (f c).slot? = some c) : RefusesDeadSlots f :=
  fun s c => everyContextCommandChecksItsSlot (f c) c s (hslot c)

theorem SlotLive.lt {c : Nat} {s : State} (h : SlotLive c s) : c < 256 :=
  h.1.trans_le (numCtx_le s.params)

theorem SlotLive.checkCtx {c : Nat} {s : State} (h : SlotLive c s) : checkCtx c s = none :=
  (checkCtx_eq_none_iff c s).2 h

/-! ### NOP (R195) -/

/-- Settles O8: NOP is a completion with nothing to complete, and its word is dropped as any other is. -/
theorem nopDoesNothing : Obligations.NopDoesNothing :=
  ⟨fun _ => rfl, encodedPlain (i := .nop) rfl, fun _ _ => step_cmd_dropped⟩

/-! ### CREATE (R196) -/

/-- A Digest that has consumed no byte (R102, R196). -/
def freshSlot : Slot := { live := true, reg := crcInit }

theorem exec_create_of_free {c : Nat} {s : State} (h : leastFree s = some c) :
    exec .create s = .next (complete .ok (some (BitVec.ofNat 64 c)) (some (c, freshSlot)) s) := by
  rw [exec, execCreate, h]
  rfl

theorem exec_create_of_full {s : State} (h : leastFree s = none) : exec .create s = .next (ended .noSlot s) := by
  rw [exec, execCreate, h]
  exact congrArg Host.Outcome.next (raiseError_eq .noSlot s)

/-- Settles O9: the lowest free slot is the one `leastFree` finds. -/
theorem createTakesTheLowestFreeSlot : Obligations.CreateTakesTheLowestFreeSlot :=
  ⟨fun s c hc hl hlow => exec_create_of_free ((leastFree_eq_some_iff c s).2 ⟨hc, hl, hlow⟩),
    fun s h => exec_create_of_full ((leastFree_eq_none_iff s).2 h), encodedPlain (i := .create) rfl⟩

/-- CREATE leaves its slot live and with the register at `INIT`, also once the next command is accepted. -/
theorem slotAt_create {c : Nat} {s : State} (hc : c < numCtx s.params) (w v : Word) :
    slotAt c (accept w (complete .ok (some v) (some (c, freshSlot)) s)) = freshSlot := by
  rw [slotAt_accept, slotAt_complete_ok c c _ freshSlot s (hc.trans_le (numCtx_le _)), if_pos rfl]

theorem slotLive_create {c : Nat} {s : State} (hc : c < numCtx s.params) (w v : Word) :
    SlotLive c (accept w (complete .ok (some v) (some (c, freshSlot)) s)) :=
  ⟨hc, by rw [slotAt_create hc]; rfl⟩

/-! ### CHECKSUM and GETREG (R200, R201) -/

/-- Settles O13: behind the check CHECKSUM answers the register with every bit inverted. -/
theorem checksumReadsTheFinalizedValue : Obligations.ChecksumReadsTheFinalizedValue :=
  ⟨fun _ _ => exec_checksum_of_live, refusesDeadSlots fun _ => rfl, encodedWithSlot (fun _ => rfl) fun _ => rfl⟩

/-- Settles O58: the register of a new Digest is all ones, which `XOROUT` takes to 0 (R102, R104). -/
theorem emptyDigestChecksumIsZero : Obligations.EmptyDigestChecksumIsZero := by
  intro s c hc hl hlow
  refine ⟨_, _, exec_create_of_free ((leastFree_eq_some_iff c s).2 ⟨hc, hl, hlow⟩), rfl,
    exec_checksum_of_live (slotLive_create hc _ _), rfl, ?_⟩
  rw [slotAt_create hc]
  exact BitVec.xor_self (x := xorOut)

theorem exec_getreg_of_live {c : Nat} {s : State} (h : SlotLive c s) :
    exec (.getreg c) s = .next (complete .ok (some (slotAt c s).reg) none s) := by
  rw [exec, execGetreg, h.checkCtx, orRaise_none]

/-- Settles O14: behind the check GETREG answers the register, after a CREATE that of a new Digest. -/
theorem getregReadsTheRawRegister : Obligations.GetregReadsTheRawRegister := by
  refine ⟨fun _ _ => exec_getreg_of_live, fun s c hc hl hlow => ?_, refusesDeadSlots fun _ => rfl,
    encodedWithSlot (fun _ => rfl) fun _ => rfl⟩
  refine ⟨_, _, exec_create_of_free ((leastFree_eq_some_iff c s).2 ⟨hc, hl, hlow⟩),
    exec_getreg_of_live (slotLive_create hc _ _), rfl, ?_⟩
  rw [slotAt_create hc]
  rfl

/-! ### DESTROY (R202) -/

theorem exec_destroy_of_live {c : Nat} {s : State} (h : SlotLive c s) :
    exec (.destroy c) s = .next (complete .ok none (some (c, freeSlot)) s) := by
  rw [exec, execDestroy, h.checkCtx, orRaise_none]

/-- Settles O15: behind the check DESTROY leaves a free slot, which a second one is refused on. -/
theorem destroyFreesTheSlot : Obligations.DestroyFreesTheSlot := by
  refine ⟨fun s c h => ⟨_, exec_destroy_of_live h, rfl, ?_⟩, refusesDeadSlots fun _ => rfl,
    encodedWithSlot (fun _ => rfl) fun _ => rfl⟩
  obtain ⟨-, hdead⟩ := everyContextCommandChecksItsSlot (.destroy c) c (complete .ok none (some (c, freeSlot)) s) rfl
  refine hdead h.1 ?_
  rw [slotAt_complete_ok c c none freeSlot s h.lt, if_pos rfl]
  rfl

/-! ### APPEND_IMM (R199) -/

/-- The staged register of a live slot. -/
theorem stageReg_of_live {c : Nat} {s : State} (h : SlotLive c s) (r : Word) :
    stageReg c r s = some (c, { live := true, reg := r }) := by
  simp only [stageReg, h.2]

/-- APPEND_IMM of at most 8 bytes (R199). -/
theorem exec_appendImm_of_short {c : Nat} {s : State} {L : Latch} (h : SlotLive c s) (hL : s.inflight = some L)
    (ht : s.tables = builtTables) (ha : L.a1.toNat ≤ 8) :
    exec (.appendImm c) s = .next
      (complete .ok none (some (c, { live := true, reg := scan (slotAt c s).reg (appendImmBytes L) })) s) := by
  have hnone : appendImmArgError L = none := if_neg (Nat.not_lt.2 ha)
  rw [exec_appendImm_of_built ht, operandLatch_of_inflight s L hL, h.checkCtx, hnone, Option.none_or, orRaise_none,
    stageReg_of_live h]

/-- APPEND_IMM of more than 8 bytes (R199). -/
theorem exec_appendImm_badArg {c : Nat} {s : State} {L : Latch} (h : SlotLive c s) (hL : s.inflight = some L)
    (ha : L.a1.toNat > 8) : exec (.appendImm c) s = .next (ended .badArg s) := by
  have hbad : appendImmArgError L = some .badArg := if_pos ha
  rw [exec, execAppendImm, operandLatch_of_inflight s L hL]
  simp only [h.checkCtx, hbad, Option.none_or, orRaise_some, raiseError_eq, ended]

/-- Settles O12: behind the check of the slot stands that of the count, and the low bytes go through the scalar stepper. -/
theorem appendImmScansItsBytes : Obligations.AppendImmScansItsBytes :=
  ⟨fun _ _ _ hL ht h => exec_appendImm_of_short h hL ht, fun _ _ _ hL h => exec_appendImm_badArg h hL,
    refusesDeadSlots fun _ => rfl, encodedWithSlot (fun _ => rfl) fun _ => rfl⟩

/-! ### APPEND (R197, R198) -/

section Append

variable {c : Nat} {s : State} {L : Latch}

theorem appendArgError_eq_none (hnull : ¬(L.a0 = 0#64 ∧ L.a1 ≠ 0#64)) (hrange : L.a0.toNat + L.a1.toNat ≤ 2 ^ 64) :
    appendArgError L = none := by
  rw [appendArgError, if_neg hnull, if_neg (Nat.not_lt.2 hrange)]

/-- A range past the top of the address space does not begin at 0, so no null pointer is found before it. -/
theorem appendArgError_range (h : L.a0.toNat + L.a1.toNat > 2 ^ 64) : appendArgError L = some .range := by
  have hnull : ¬(L.a0 = 0#64 ∧ L.a1 ≠ 0#64) := by
    rintro ⟨h0, -⟩
    have := L.a1.isLt
    rw [h0] at h
    simp at h
    omega
  rw [appendArgError, if_neg hnull, if_pos h]

/-- On a live slot an APPEND ends in the error of its own checks, if they find one. -/
theorem exec_append_argError {e : ErrCode} (h : SlotLive c s) (hL : s.inflight = some L) (he : appendArgError L = some e) :
    exec (.append c) s = .next (ended e s) := by
  rw [exec_append c s L hL, h.checkCtx, he, orRaise_none, orRaise_some, raiseError_eq, ended]

theorem appendError_of_live (h : SlotLive c s) (hnull : ¬(L.a0 = 0#64 ∧ L.a1 ≠ 0#64))
    (hrange : L.a0.toNat + L.a1.toNat ≤ 2 ^ 64) : appendError c L s = none := by
  rw [appendError, h.checkCtx, appendArgError_eq_none hnull hrange, Option.none_or]

/-- Without a racing store the bytes of a readable range are those of memory, in address order. -/
theorem readRange_eq_memBytes (hw : s.window = []) (hi : L.i = 0) (hrange : L.a0.toNat + L.a1.toNat ≤ 2 ^ 64)
    (ha : RangeAnswered s L) (hr : RangeReadable s L) :
    readRange L L.i (appendLength L - L.i) s = .bytes (memBytes s L.a0.toNat L.a1.toNat) := by
  rw [hi, Nat.sub_zero, readRange_bytes L 0 _ s fun j _ hj => ⟨ha j (by omega), hr j (by omega)⟩, memBytes, appendLength,
    ← List.range_eq_range']
  refine congrArg _ (List.map_congr_left fun j hj => ?_)
  rw [portByte_of_window_nil _ _ s hw, rangeAddr_toNat L j hrange (List.mem_range.1 hj)]

/-- An APPEND of a readable range, from its start (R197). -/
theorem exec_append_of_readable (h : SlotLive c s) (hL : s.inflight = some L) (hi : L.i = 0) (ht : s.tables = builtTables)
    (hw : s.window = []) (hnull : ¬(L.a0 = 0#64 ∧ L.a1 ≠ 0#64)) (hrange : L.a0.toNat + L.a1.toNat ≤ 2 ^ 64)
    (ha : RangeAnswered s L) (hr : RangeReadable s L) :
    exec (.append c) s = .next (complete .ok none
      (some (c, { live := true, reg := scan (slotAt c s).reg (memBytes s L.a0.toNat L.a1.toNat) }))
      (logReads L 0 L.a1.toNat s)) := by
  rw [exec_append_of_checked hL (appendError_of_live h hnull hrange), readRange_eq_memBytes hw hi hrange ha hr,
    finishAppend_bytes_of_built ht, stageReg_of_live h, workingReg, if_pos hi, hi, Nat.sub_zero, appendLength]

/-- An APPEND with a faulting read in its range, from its start: it ends with `BUS`, the reads up to the fault made (R198). -/
theorem exec_append_of_fault (h : SlotLive c s) (hL : s.inflight = some L) (hi : L.i = 0)
    (hnull : ¬(L.a0 = 0#64 ∧ L.a1 ≠ 0#64)) (hrange : L.a0.toNat + L.a1.toNat ≤ 2 ^ 64) (ha : RangeAnswered s L)
    (hr : ¬RangeReadable s L) :
    ∃ k, k < L.a1.toNat ∧ exec (.append c) s = .next
      { ended .bus s with portReads := s.portReads ++ (List.range (k + 1)).map (rangeAddr L) } := by
  rw [exec_append_of_checked hL (appendError_of_live h hnull hrange), hi, Nat.sub_zero]
  rcases readRange_answered L 0 (appendLength L) s fun j _ hj => ha j (by omega) with ⟨d, -, hok⟩ | ⟨k, hk, hread, -⟩
  · exact absurd (fun j hj => hok j (Nat.zero_le j) (by omega)) hr
  · refine ⟨k, hk, ?_⟩
    rw [hread, finishAppend, raiseError_eq, hi, List.range_eq_range']
    rfl

end Append

/-- Settles O10: the checks in their order, then the range: the bytes of memory, or a fault. -/
theorem appendScansItsRange : Obligations.AppendScansItsRange := by
  refine ⟨fun s L c hL hi ht hw h hnull hrange ha hr => ?_, fun s L c hL h h0 h1 => ?_,
    fun s L c hL h hbig => exec_append_argError h hL (appendArgError_range hbig),
    fun s L c hL hi h hnull hrange ha hr => ?_, refusesDeadSlots fun _ => rfl, encodedWithSlot (fun _ => rfl) fun _ => rfl⟩
  · refine ⟨_, List.Perm.refl _, ?_⟩
    rw [exec_append_of_readable h hL hi ht hw hnull hrange ha hr, logReads, ← List.range_eq_range']
    rfl
  · exact exec_append_argError h hL (if_pos ⟨h0, h1⟩)
  · obtain ⟨k, -, hbus⟩ := exec_append_of_fault h hL hi hnull hrange ha hr
    exact ⟨_, hbus⟩

/-- Settles O11: the reads made are a beginning of the range. -/
theorem appendBusFaultCommitsNothing : Obligations.AppendBusFaultCommitsNothing := by
  intro s L c hL hi hreads h hnull hrange ha hr
  obtain ⟨k, hk, hbus⟩ := exec_append_of_fault h hL hi hnull hrange ha hr
  rw [hreads, List.nil_append] at hbus
  refine ⟨_, hbus, nodup_map_rangeAddr L (hk.trans L.a1.isLt), fun a hmem => ?_⟩
  obtain ⟨j, hj, rfl⟩ := List.mem_map.1 hmem
  exact ⟨j, (List.mem_range.1 hj).trans_le hk, rfl⟩

end Sys2Proof.Machine
end

section
/-! PROOFS. What a command leaves alone (R193, R206): the engine beside its own state, and every slot but its own, which it does
not see either. -/

namespace Sys2Proof.Machine

/-! ### The frame of a command -/

section Frame

variable {i : Instr} {s t : State}

/-- What no command changes, from the ways it can end. -/
theorem exec_frame (h : exec i s = .next t) :
    t.params = s.params ∧ t.tables = s.tables ∧ t.builder = s.builder ∧ t.tblReady = s.tblReady ∧
      t.overrun = s.overrun ∧ t.ctrl = s.ctrl ∧ t.arg0 = s.arg0 ∧ t.arg1 = s.arg1 ∧ t.accessed = s.accessed ∧
      t.draws = s.draws ∧ t.reply = s.reply ∧ t.events = s.events ∧ t.mem = s.mem := by
  cases exec_end h with
  | raised | succeeded | unanswered => exact ⟨rfl, rfl, rfl, rfl, rfl, rfl, rfl, rfl, rfl, rfl, rfl, rfl, rfl⟩

theorem slotAt_orRaise {x : Nat} (e : Option ErrCode) (h : slotAt x t = slotAt x s) :
    slotAt x (orRaise e s t) = slotAt x s := by
  cases e with
  | none => exact h
  | some code => exact slotAt_raiseError x code s

theorem slotAt_complete_other {x c : Nat} (h : c ≠ x) (e : ErrCode) (v : Option Word) (g : Slot) (s : State) :
    slotAt x (complete e v (some (c, g)) s) = slotAt x s :=
  slotAt_complete_of_ne x e v _ s fun _ hg => h (congrArg Prod.fst (Option.some.inj hg))

theorem slotAt_finishAppend {x c : Nat} (h : c ≠ x) (L : Latch) (o : RangeOutcome) (s : State) :
    slotAt x (finishAppend c L o s) = slotAt x s := by
  cases o with
  | silent => rfl
  | busFault k => exact slotAt_raiseError x .bus _
  | bytes d => exact slotAt_complete_other h .ok none _ _

/-- A command writes no slot but the one it names, or for CREATE the lowest free one (R206). -/
theorem slotAt_exec {x : Nat} (hx : i.slot? ≠ some x) (hfree : i = .create → leastFree s ≠ some x)
    (h : exec i s = .next t) : slotAt x t = slotAt x s := by
  have hne (c : Nat) (hi : i.slot? = some c) : c ≠ x := fun hc => hx (hc ▸ hi)
  cases i <;> obtain rfl := Host.Outcome.next.inj h
  case nop | stepWord => exact slotAt_complete_none x .ok _ s
  case create =>
    split
    · exact slotAt_raiseError x .noSlot s
    · next c hc => exact slotAt_complete_other (fun hcx => hfree rfl (hc.trans (congrArg some hcx))) .ok _ _ s
  case append c => exact slotAt_orRaise _ (slotAt_finishAppend (hne c rfl) _ _ s)
  case appendImm c | destroy c => exact slotAt_orRaise _ (slotAt_complete_other (hne c rfl) .ok none _ s)
  case checksum | getreg | stepByte | tblRead => exact slotAt_orRaise _ (slotAt_complete_none x .ok _ s)

/-- CHECKSUM and GETREG write no slot at all (R200, R201). -/
theorem slotAt_exec_query {c : Nat} (hi : i = .checksum c ∨ i = .getreg c) (h : exec i s = .next t) (x : Nat) :
    slotAt x t = slotAt x s := by
  rcases hi with rfl | rfl <;> obtain rfl := Host.Outcome.next.inj h <;>
    exact slotAt_orRaise _ (slotAt_complete_none x .ok _ s)

end Frame

/-- Settles O22: the frame of a command is that of its end, and a small step consumes, waits, or ends in `BUS`. -/
theorem commandsChangeOnlyTheirOwnState : Obligations.CommandsChangeOnlyTheirOwnState := by
  refine ⟨fun i s t h => ?_, fun i s t L hL hu => ?_⟩
  · obtain ⟨hparams, htables, hbuilder, hready, hoverrun, hctrl, harg0, harg1, haccessed, hdraws, hreply, hevents, hmem⟩ :=
      exec_frame h
    exact ⟨hparams, htables, hbuilder, hready, hoverrun, hctrl, harg0, harg1, haccessed, hdraws, hreply, hevents,
      fun a => by rw [hmem], fun x hx hfree => slotAt_exec hx hfree h, fun x c hi => slotAt_exec_query hi h x⟩
  · obtain ⟨c, -, -, -, rfl⟩ := commandUnit_eq_some hL hu
    cases readRange L L.i (unitLength s.params L) s with
    | silent =>
      refine ⟨fun M hM => ?_, fun hnone => by cases hL.symm.trans hnone⟩
      obtain rfl := Option.some.inj (hL.symm.trans hM)
      exact ⟨rfl, rfl, rfl, rfl, rfl⟩
    | busFault k => exact ⟨nofun, fun _ => raiseError_eq .bus _⟩
    | bytes d => exact ⟨by rintro _ ⟨⟩; exact ⟨rfl, rfl, rfl, rfl, rfl⟩, nofun⟩

/-! ### Isolation of the slots (R206) -/

/-- `s` with other contents of its slots. -/
def withSlots (v : Vector Slot 256) (s : State) : State := { s with slots := v }

/-- What a command on slot `c` answers and leaves in that slot. -/
def slotOutcome (c : Nat) (s : State) : ErrCode × Word × Option Slot × Option Latch :=
  (s.errcode, s.result, s.slots[c]?, s.inflight)

/-- A staged change leaves in a slot what it left before, when the slot held the same before it. -/
theorem applyStaged_congr (g : Option (Nat × Slot)) {v w : Vector Slot 256} {c : Nat} (h : v[c]? = w[c]?) :
    (applyStaged g v)[c]? = (applyStaged g w)[c]? := by
  match g with
  | none => exact h
  | some (b, x) => simp only [applyStaged, Vector.getElem?_setIfInBounds, h]

section Isolation

variable {c : Nat} {s : State} {v : Vector Slot 256} (hv : v[c]? = s.slots[c]?)

include hv

theorem slotAt_withSlots : slotAt c (withSlots v s) = slotAt c s :=
  congrArg (Option.getD · freeSlot) hv

theorem checkCtx_withSlots : checkCtx c (withSlots v s) = checkCtx c s := by
  rw [checkCtx, checkCtx, slotAt_withSlots hv]
  rfl

theorem stageReg_withSlots (r : Word) : stageReg c r (withSlots v s) = stageReg c r s := by
  rw [stageReg, stageReg, slotAt_withSlots hv]

theorem slotOutcome_complete (e : ErrCode) (r : Option Word) (g : Option (Nat × Slot)) :
    slotOutcome c (complete e r g (withSlots v s)) = slotOutcome c (complete e r g s) := by
  have hslots : (complete e r g (withSlots v s)).slots[c]? = (complete e r g s).slots[c]? := by
    rw [complete_slots, complete_slots]
    split
    · exact applyStaged_congr g hv
    · exact hv
  simp only [slotOutcome, hslots]
  rfl

theorem slotOutcome_orRaise (e : Option ErrCode) {t t' : State} (h : slotOutcome c t' = slotOutcome c t) :
    slotOutcome c (orRaise e (withSlots v s) t') = slotOutcome c (orRaise e s t) := by
  cases e with
  | none => exact h
  | some code => exact slotOutcome_complete hv code none none

theorem slotOutcome_finishAppend (L : Latch) (o : RangeOutcome) :
    slotOutcome c (finishAppend c L o (withSlots v s)) = slotOutcome c (finishAppend c L o s) := by
  cases o with
  | silent => simp only [finishAppend, slotOutcome, withSlots, hv]
  | busFault k => exact slotOutcome_complete (s := logReads L L.i (k + 1) s) hv .bus none none
  | bytes d =>
    have hwork : workingReg c L (withSlots v s) = workingReg c L s := by
      rw [workingReg, workingReg, slotAt_withSlots hv]
    rw [finishAppend, hwork, stageReg_withSlots hv]
    exact slotOutcome_complete (s := logReads L L.i (appendLength L - L.i) s) hv .ok none _

/-- A command on a slot sees no other. -/
theorem slotOutcome_exec {i : Instr} {t u : State} (hi : i.slot? = some c) (h : exec i s = .next t)
    (h' : exec i (withSlots v s) = .next u) : slotOutcome c u = slotOutcome c t := by
  cases i <;> cases hi <;> obtain rfl := Host.Outcome.next.inj h <;> obtain rfl := Host.Outcome.next.inj h'
  case append =>
    have hread (L : Latch) : readRange L L.i (appendLength L - L.i) (withSlots v s) =
        readRange L L.i (appendLength L - L.i) s := readRange_congr _ _ _ s _ rfl rfl rfl rfl
    rw [hread, appendError, checkCtx_withSlots hv]
    exact slotOutcome_orRaise hv _ (slotOutcome_finishAppend hv _ _)
  case appendImm =>
    rw [checkCtx_withSlots hv, slotAt_withSlots hv, stageReg_withSlots hv]
    exact slotOutcome_orRaise hv _ (slotOutcome_complete hv .ok none _)
  case checksum | getreg =>
    rw [checkCtx_withSlots hv, slotAt_withSlots hv]
    exact slotOutcome_orRaise hv _ (slotOutcome_complete hv .ok _ none)
  case destroy =>
    rw [checkCtx_withSlots hv]
    exact slotOutcome_orRaise hv _ (slotOutcome_complete hv .ok none _)

end Isolation

theorem orRaise_slots (e : Option ErrCode) {s t : State} (h : t.slots = s.slots) : (orRaise e s t).slots = s.slots := by
  cases e with
  | none => exact h
  | some code => exact raiseError_slots code s

theorem orRaise_withSlots (e : Option ErrCode) (v : Vector Slot 256) (s t : State) :
    orRaise e (withSlots v s) (withSlots v t) = withSlots v (orRaise e s t) := by
  cases e with
  | none => rfl
  | some code => rw [orRaise_some, orRaise_some, raiseError_eq, raiseError_eq]; rfl

/-- A command without a slot, CREATE apart, neither writes the slots nor sees them. -/
theorem exec_withSlots {i : Instr} {s t : State} (hi : i.slot? = none) (hc : i ≠ .create) (h : exec i s = .next t)
    (v : Vector Slot 256) : t.slots = s.slots ∧ exec i (withSlots v s) = .next (withSlots v t) := by
  cases i <;> cases hi <;> obtain rfl := Host.Outcome.next.inj h
  case create => exact absurd rfl hc
  case nop | stepWord => exact ⟨rfl, rfl⟩
  case stepByte | tblRead =>
    refine ⟨orRaise_slots _ rfl, ?_⟩
    rw [← orRaise_withSlots]
    rfl

/-- Settles O24: what a command on a slot does there depends on that slot alone, and the others it leaves as they are. -/
theorem slotsAreIsolated : Obligations.SlotsAreIsolated := by
  refine ⟨fun i c s v hi hv => ?_, fun i s v hi hc => ?_⟩
  · obtain ⟨t, ht⟩ := exec_eq_next i s
    obtain ⟨u, hu⟩ := exec_eq_next i (withSlots v s)
    obtain ⟨hcode, hresult, hslot, hflight⟩ :
        u.errcode = t.errcode ∧ u.result = t.result ∧ u.slots[c]? = t.slots[c]? ∧ u.inflight = t.inflight := by
      simpa [slotOutcome] using slotOutcome_exec hv hi ht hu
    refine ⟨t, u, ht, hu, hcode, hresult, hslot, hflight, fun x hx => slotAt_exec ?_ ?_ ht⟩
    · rw [hi]
      exact fun h => hx (Option.some.inj h).symm
    · rintro rfl
      cases hi
  · obtain ⟨t, ht⟩ := exec_eq_next i s
    obtain ⟨hslots, hv⟩ := exec_withSlots hi hc ht v
    exact ⟨t, ht, hslots, hv⟩

end Sys2Proof.Machine
end

section
/-! PROOFS. Commands issued through the register block (R191, R203, R204): acceptance of a `CMD` write, and what a list of host
commands on one slot leaves in it. -/

namespace Sys2Proof.Machine

/-! ### Acceptance (R191) -/

/-- A host's write of a register as a step. -/
theorem step_regWrite {s : State} {r : Reg} {v : Word} {rest : List Event}
    (h : s.events = .hostWrite (regAddr r s) 8 v :: rest) :
    step s = .next (withReply .written (regWrite r v { s with events := rest })) :=
  (step_hostWrite h).trans (congrArg Host.Outcome.next (hostWrite_regAddr r v { s with events := rest }))

/-- A write of `CMD` on an idle engine accepts the word. -/
theorem step_cmd_accepted {s : State} {v : Word} {rest : List Event} (hbusy : s.busy = false)
    (h : s.events = .hostWrite (regAddr .cmd s) 8 v :: rest) :
    step s = .next (withReply .written (accept v { s with events := rest })) := by
  have hissue : regWrite .cmd v { s with events := rest } = accept v { s with events := rest } := by
    rw [regWrite, issueCommand]
    exact if_neg (by simp [hbusy])
  rw [step_regWrite h, hissue]

/-- Settles O27: `BUSY` decides between the drop and the acceptance. -/
theorem cmdWritesAreAcceptedOrDropped : Obligations.CmdWritesAreAcceptedOrDropped :=
  fun _ _ _ h => ⟨fun hbusy => step_cmd_dropped hbusy h,
    fun hbusy => ⟨_, step_cmd_accepted hbusy h, rfl, rfl, rfl, rfl, rfl, rfl, rfl, rfl, rfl, rfl, rfl⟩⟩

/-! ### One command of a host on a slot -/

/-- `s` once a host has written the operand registers. -/
def withOperands (k : Sel) (a n : Word) (s : State) : State :=
  { s with ctrl := k, arg0 := a, arg1 := n, accessed := true, reply := some .written }

/-- An idle engine once the host has written `CTRL`, `ARG0`, `ARG1` and `CMD` for a feed: its command is in flight. -/
def issueFeed (c : Nat) (f : Feed) (s : State) : State :=
  accept (encode (feedCommand c f))
    (withOperands (ctrlWritten s.params (feedValues f).1) (feedValues f).2.1 (feedValues f).2.2 s)

section Writes

variable {s : State} {v : Word} {es : List Event} (k : Sel) (a n : Word)

theorem step_write_ctrl (h : s.events = .hostWrite (regAddr .ctrl s) 8 v :: es) :
    step s = .next (withOperands (ctrlWritten s.params v) s.arg0 s.arg1 (withEvents es s)) :=
  step_regWrite h

theorem step_write_arg0 :
    step (withOperands k a n (withEvents (.hostWrite (regAddr .arg0 s) 8 v :: es) s)) =
      .next (withOperands k v n (withEvents es s)) :=
  step_regWrite (r := .arg0) (s := withOperands k a n _) rfl

theorem step_write_arg1 :
    step (withOperands k a n (withEvents (.hostWrite (regAddr .arg1 s) 8 v :: es) s)) =
      .next (withOperands k a v (withEvents es s)) :=
  step_regWrite (r := .arg1) (s := withOperands k a n _) rfl

theorem step_write_cmd (hbusy : s.busy = false) :
    step (withOperands k a n (withEvents (.hostWrite (regAddr .cmd s) 8 v :: es) s)) =
      .next (accept v (withOperands k a n (withEvents es s))) :=
  step_cmd_accepted (s := withOperands k a n _) hbusy rfl

end Writes

theorem feedCommand_slot (c : Nat) (f : Feed) : (feedCommand c f).slot? = some c := by
  cases f <;> rfl

theorem decode_feedCommand {c : Nat} (hc : c < 256) (f : Feed) : decode (encode (feedCommand c f)) = .ok (feedCommand c f) :=
  decode_encode (by simpa [Instr.wellFormed, feedCommand_slot] using hc)

/-- The five steps of a feed are its command's execution. -/
theorem run_feed {s t : State} {c : Nat} {f : Feed} {rest : List Event} (hc : c < 256) (hs : Idle s)
    (he : s.events = feedEvents s c f ++ rest)
    (ht : exec (feedCommand c f) (issueFeed c f (withEvents rest s)) = .next t) (n : Nat) :
    Host.Core.run Sys2Proof.core (n + 5) s = Host.Core.run Sys2Proof.core n t := by
  have hrun : engineRun (issueFeed c f (withEvents rest s)) = .next t :=
    (engineRun_command (s := issueFeed c f (withEvents rest s)) hs.built rfl (decode_feedCommand hc f)).trans ht
  refine Eq.trans (run_step (n + 4) s _ (step_write_ctrl he)) ?_
  refine Eq.trans (run_step (n + 3) _ _ (step_write_arg0 (s := s) ..)) ?_
  refine Eq.trans (run_step (n + 2) _ _ (step_write_arg1 (s := s) ..)) ?_
  refine Eq.trans (run_step (n + 1) _ _ (step_write_cmd (s := s) _ _ _ hs.not_busy)) ?_
  exact run_step n _ t ((step_event .engineRun rest _ rfl).trans hrun)

/-! ### What feeds leave behind -/

/-- From the idle engine `s`, the bytes `d` were appended to the live slot `c`: the engine is idle again in `t`, and of the slots,
the parameters and memory nothing else changed. -/
structure SlotFed (c : Nat) (d : List Byte) (s t : State) : Prop where
  idle : Idle t
  params : t.params = s.params
  mem : t.mem = s.mem
  slots : ∀ x, slotAt x t = if x = c then { live := true, reg := scan (slotAt c s).reg d } else slotAt x s

section Feeds

variable {c : Nat} {d e : List Byte} {s t u : State}

theorem SlotFed.slotAt_eq (h : SlotFed c d s t) : slotAt c t = { live := true, reg := scan (slotAt c s).reg d } :=
  (h.slots c).trans (if_pos rfl)

theorem SlotFed.slotLive (h : SlotFed c d s t) (hl : SlotLive c s) : SlotLive c t :=
  ⟨h.params ▸ hl.1, by rw [h.slotAt_eq]⟩

/-- With no byte appended every slot is as it was. -/
theorem SlotFed.of_slots (hl : SlotLive c s) (hidle : Idle t) (hp : t.params = s.params) (hm : t.mem = s.mem)
    (hx : ∀ x, slotAt x t = slotAt x s) : SlotFed c [] s t where
  idle := hidle
  params := hp
  mem := hm
  slots x := by
    rw [hx, scan_nil, ← hl.2]
    split
    · next h => rw [h]
    · rfl

/-- One list of bytes after the other (R143). -/
theorem SlotFed.trans (h : SlotFed c d s t) (h' : SlotFed c e t u) : SlotFed c (d ++ e) s u where
  idle := h'.idle
  params := h'.params.trans h.params
  mem := h'.mem.trans h.mem
  slots x := by
    rw [h'.slots, h.slotAt_eq, scan_append, h.slots]
    split <;> rfl

theorem SlotFed.of_append (hs : Idle s) (hl : SlotLive c s) (f : Feed) (d : List Byte) (r : List Word) :
    SlotFed c d s (complete .ok none (some (c, { live := true, reg := scan (slotAt c s).reg d }))
      { issueFeed c f s with portReads := r }) where
  idle := ⟨rfl, rfl, hs.built, hs.tables_built⟩
  params := rfl
  mem := rfl
  slots x := slotAt_complete_ok x c none _ _ hl.lt

theorem SlotFed.of_query (hs : Idle s) (hl : SlotLive c s) (f : Feed) (v : Option Word) :
    SlotFed c [] s (complete .ok v none (issueFeed c f s)) :=
  .of_slots hl ⟨rfl, rfl, hs.built, hs.tables_built⟩ rfl rfl fun x => slotAt_complete_none x .ok v _

/-- A feed that passes its command's checks appends its bytes. -/
theorem exec_feed {f : Feed} (hs : Idle s) (hl : SlotLive c s) (hf : FeedValid s f) :
    ∃ t, exec (feedCommand c f) (issueFeed c f s) = .next t ∧ t.events = s.events ∧ SlotFed c (feedBytes s f) s t := by
  cases f with
  | append k a n =>
    obtain ⟨hnull, hrange, hread⟩ := hf
    exact ⟨_, exec_append_of_readable (s := issueFeed c (.append k a n) s) hl rfl rfl hs.tables_built rfl hnull hrange
      (fun j hj => (hread j hj).1) (fun j hj => (hread j hj).2), rfl, .of_append hs hl _ _ _⟩
  | appendImm k a n =>
    exact ⟨_, exec_appendImm_of_short (s := issueFeed c (.appendImm k a n) s) hl rfl hs.tables_built hf, rfl,
      .of_append hs hl _ _ []⟩
  | checksum k a n =>
    exact ⟨_, exec_checksum_of_live (s := issueFeed c (.checksum k a n) s) hl, rfl, .of_query hs hl _ _⟩
  | getreg k a n =>
    exact ⟨_, exec_getreg_of_live (s := issueFeed c (.getreg k a n) s) hl, rfl, .of_query hs hl _ _⟩

/-- Neither `Idle` nor what feeds leave behind speaks of the events to come. -/
theorem Idle.withEvents (hs : Idle s) (es : List Event) : Idle (withEvents es s) :=
  ⟨hs.not_busy, hs.none_in_flight, hs.built, hs.tables_built⟩

theorem SlotFed.of_withEvents {es : List Event} (h : SlotFed c d (withEvents es s) t) : SlotFed c d s t :=
  ⟨h.idle, h.params, h.mem, h.slots⟩

theorem feedEvents_congr (h : t.params = s.params) (c : Nat) : feedEvents t c = feedEvents s c := by
  funext f
  simp only [feedEvents, regAddr, h]

theorem feedBytes_congr (h : t.mem = s.mem) : feedBytes t = feedBytes s := by
  funext f
  cases f <;> simp only [feedBytes, memBytes, h]

theorem feedValid_congr (h : t.params = s.params) (f : Feed) : FeedValid t f ↔ FeedValid s f := by
  cases f <;> simp only [FeedValid, h]

/-- A list of feeds appends the bytes of each, one after the other (R203). -/
theorem run_feeds (fs : List Feed) (rest : List Event) (hs : Idle s) (hl : SlotLive c s) (hf : ∀ f ∈ fs, FeedValid s f)
    (he : s.events = fs.flatMap (feedEvents s c) ++ rest) :
    ∃ t, (∀ n, Host.Core.run Sys2Proof.core (n + 5 * fs.length) s = Host.Core.run Sys2Proof.core n t) ∧ t.events = rest ∧
      SlotFed c (fs.flatMap (feedBytes s)) s t := by
  induction fs generalizing s with
  | nil => exact ⟨s, fun _ => rfl, he, .of_slots hl hs rfl rfl fun _ => rfl⟩
  | cons f fs ih =>
    rw [List.flatMap_cons, List.append_assoc] at he
    obtain ⟨hff, hfs⟩ := List.forall_mem_cons.1 hf
    obtain ⟨t, ht, hte, hfed⟩ := exec_feed (f := f) (hs.withEvents (fs.flatMap (feedEvents s c) ++ rest)) hl hff
    have hfirst : SlotFed c (feedBytes s f) s t := hfed.of_withEvents
    obtain ⟨u, hu, hue, hrest⟩ := ih hfirst.idle (hfirst.slotLive hl)
      (fun g hg => (feedValid_congr hfirst.params g).2 (hfs g hg)) (by rw [feedEvents_congr hfirst.params]; exact hte)
    rw [feedBytes_congr hfirst.mem] at hrest
    refine ⟨u, fun n => ?_, hue, hfirst.trans hrest⟩
    exact (run_feed hl.lt hs he ht (n + 5 * fs.length)).trans (hu n)

end Feeds

/-- Settles O56: a list of feeds with nothing after it. -/
theorem chunkingDoesNotMatter : Obligations.ChunkingDoesNotMatter := by
  intro s c fs hs hl hf
  obtain ⟨t, ht, -, hfed⟩ := run_feeds fs [] (hs.withEvents (fs.flatMap (feedEvents s c))) hl hf (List.append_nil _).symm
  have hfed' : SlotFed c (fs.flatMap (feedBytes s)) s t := hfed.of_withEvents
  refine ⟨t, ?_, ?_, hfed'.slotLive hl, hfed'.idle, fun x hx => ?_⟩
  · exact Nat.zero_add (5 * fs.length) ▸ ht 0
  · rw [hfed'.slotAt_eq]
  · rw [hfed'.slots, if_neg hx]

/-! ### Queries (R204) -/

/-- The value a CHECKSUM of a host answers, and that it leaves the slots as they are. -/
theorem run_checksum {s : State} {c : Nat} {k a n : Word} {rest : List Event} (hs : Idle s) (hl : SlotLive c s)
    (he : s.events = feedEvents s c (.checksum k a n) ++ rest) :
    ∃ t, (∀ m, Host.Core.run Sys2Proof.core (m + 5) s = Host.Core.run Sys2Proof.core m t) ∧ SlotFed c [] s t ∧
      t.errcode = .ok ∧ t.result = (slotAt c s).reg ^^^ xorOut :=
  ⟨_, run_feed hl.lt hs he
    (exec_checksum_of_live (s := issueFeed c (.checksum k a n) (withEvents rest s)) hl),
    (SlotFed.of_query (hs.withEvents rest) hl _ _).of_withEvents, rfl, rfl⟩

/-- Feeds without a byte pass the checks of their commands, and append nothing (R204). -/
theorem emptyFeeds {zs : List Feed} (t : State)
    (hz : ∀ z ∈ zs, ∃ k a, z = Feed.append k a 0#64 ∨ z = Feed.appendImm k a 0#64) :
    (∀ z ∈ zs, FeedValid t z) ∧ zs.flatMap (feedBytes t) = [] := by
  refine ⟨fun z hmem => ?_, List.flatMap_eq_nil_iff.2 fun z hmem => ?_⟩ <;>
    obtain ⟨k, a, rfl | rfl⟩ := hz z hmem
  · exact ⟨fun h => h.2 rfl, a.isLt.le, nofun⟩
  · exact Nat.zero_le 8
  · rfl
  · rfl

/-- Settles O57: feeds without a byte leave the register that the first CHECKSUM answered from. -/
theorem queriesAreRepeatable : Obligations.QueriesAreRepeatable := by
  intro s c k a zs hs hl hz
  obtain ⟨t, ht, hfed, hterr, htres⟩ := run_checksum (k := k) (a := a) (n := 0#64) (rest := [])
    (hs.withEvents (feedEvents s c (.checksum k a 0#64))) hl (List.append_nil _).symm
  have hst : SlotFed c [] s t := hfed.of_withEvents
  obtain ⟨hvalid, hempty⟩ := emptyFeeds t hz
  have hevents : (zs ++ [Feed.checksum k a 0#64]).flatMap (feedEvents t c) =
      zs.flatMap (feedEvents t c) ++ feedEvents t c (.checksum k a 0#64) := by simp
  obtain ⟨v, hv, hve, hfed'⟩ := run_feeds zs (feedEvents t c (.checksum k a 0#64))
    (hst.idle.withEvents ((zs ++ [Feed.checksum k a 0#64]).flatMap (feedEvents t c))) (hst.slotLive hl) hvalid hevents
  have htv : SlotFed c [] t v := hempty ▸ hfed'.of_withEvents
  obtain ⟨u, hu, -, huerr, hures⟩ := run_checksum (k := k) (a := a) (n := 0#64) (rest := []) htv.idle
    (htv.slotLive (hst.slotLive hl)) (by rw [List.append_nil, feedEvents_congr htv.params]; exact hve)
  refine ⟨t, u, ht 0, ?_, hterr, huerr, ?_⟩
  · rw [Nat.mul_succ, Nat.add_comm, hv 5]
    exact hu 0
  · rw [hures, htv.slotAt_eq, hst.slotAt_eq]
    exact htres.symm

end Sys2Proof.Machine
end

section
/-! PROOFS. Errors (R240 to R247): every step answers a next state, an error changes nothing beside the status, the one code a
command reports, and a completion beside a write of `CMD`. -/

namespace Sys2Proof.Machine

/-! ### No traps (R244) -/

theorem runWord_eq_next (w : Word) (s : State) : ∃ t, runWord w s = .next t := by
  cases hd : decode w with
  | ok i => exact runWord_ok w i s hd ▸ exec_eq_next i s
  | error e => exact ⟨_, runWord_error w e s hd⟩

theorem runWordUnit_eq_next (w : Word) (s : State) : ∃ t, runWordUnit w s = .next t := by
  unfold runWordUnit
  split
  · next i _ =>
    split
    · exact ⟨_, rfl⟩
    · exact exec_eq_next i s
  · exact ⟨_, rfl⟩

theorem engineRun_eq_next (s : State) : ∃ t, engineRun s = .next t := by
  unfold engineRun
  split
  · exact ⟨_, rfl⟩
  · exact runWord_eq_next _ s
  · exact ⟨_, rfl⟩

theorem engineUnit_eq_next (s : State) : ∃ t, engineUnit s = .next t := by
  unfold engineUnit
  split
  · exact ⟨_, rfl⟩
  · exact runWordUnit_eq_next _ s
  · exact ⟨_, rfl⟩

theorem takeEvent_eq_next (e : Event) (s : State) : ∃ t, takeEvent e s = .next t := by
  cases e with
  | reset | hostRead | hostWrite | memStore => exact ⟨_, rfl⟩
  | engineUnit => exact engineUnit_eq_next s
  | engineRun => exact engineRun_eq_next s

/-- Settles O49: an event takes effect, and a turn of the engine ends in the state of its builder or of its command. -/
theorem everyStepAnswersANextState : Obligations.EveryStepAnswersANextState := by
  intro s
  cases he : s.events with
  | nil => exact step_no_event s he ▸ engineRun_eq_next s
  | cons e rest => exact step_event e rest s he ▸ takeEvent_eq_next e _

/-! ### The effect of an error (R241) -/

/-- Settles O20: of the ways a command can end, only a raised error leaves another code than `OK`. -/
theorem errorsChangeOnlyTheStatus : Obligations.ErrorsChangeOnlyTheStatus := by
  intro i s t L hL h hnone hcode
  cases exec_end h with
  | raised e r => exact raiseError_eq e _
  | succeeded => exact absurd rfl hcode
  | unanswered => cases hL.symm.trans hnone

/-! ### The code a command reports (R242) -/

/-- The code of a command behind its checks: that of the first check that fails, or that of its end. -/
theorem orRaise_errcode (e : Option ErrCode) (s t : State) : (orRaise e s t).errcode = e.getD t.errcode := by
  cases e <;> rfl

/-- A single check, and the code `d` that stands where it finds nothing. -/
theorem check_getD (p : Prop) [Decidable p] (e d : ErrCode) : (if p then some e else none).getD d = if p then e else d :=
  apply_ite (Option.getD · d) p (some e) none

/-- The context check, and the code `d` that stands where it finds nothing (R194). -/
theorem checkCtx_getD (c : Nat) (s : State) (d : ErrCode) :
    (checkCtx c s).getD d =
      if numCtx s.params ≤ c then .badCtx else if (slotAt c s).live = false then .deadCtx else d := by
  rcases checkCtx_cases c s with ⟨hc, e⟩ | ⟨hc, hl, e⟩ | ⟨hc, hl, e⟩ <;> rw [e]
  · exact (if_pos hc).symm
  · simp [Nat.not_le.2 hc, hl]
  · simp [Nat.not_le.2 hc, hl]

/-- APPEND's own checks, and the code `d` that stands where they find nothing (R197). -/
theorem appendArgError_getD (L : Latch) (d : ErrCode) :
    (appendArgError L).getD d =
      if L.a0 = 0#64 ∧ L.a1 ≠ 0#64 then .nullPtr else if L.a0.toNat + L.a1.toNat > 2 ^ 64 then .range else d := by
  rw [appendArgError, apply_ite (Option.getD · d), check_getD, Option.getD_some]

section Codes

variable {c : Nat} {s t : State} {L : Latch}

/-- Past its checks an answered APPEND ends with `BUS` where a read of its range faults, else with `OK` (R198). -/
theorem finishAppend_errcode (hi : L.i = 0) (ha : RangeAnswered s L) :
    (finishAppend c L (readRange L L.i (appendLength L - L.i) s) s).errcode =
      if ((List.range L.a1.toNat).any fun j => memFault s.params (rangeAddr L j)) = true then .bus else .ok := by
  rw [hi, Nat.sub_zero]
  rcases readRange_answered L 0 (appendLength L) s fun j _ hj => ha j (by omega) with ⟨d, hr, hok⟩ | ⟨k, hk, hr, hfault⟩ <;>
    rw [hr]
  · refine (if_neg fun hany => ?_).symm
    obtain ⟨j, hj, hf⟩ := List.any_eq_true.1 hany
    have hlt : j < 0 + appendLength L := (List.mem_range.1 hj).trans_eq (Nat.zero_add _).symm
    cases hf.symm.trans (hok j j.zero_le hlt)
  · exact (if_pos (List.any_eq_true.2 ⟨k, List.mem_range.2 hk, k.zero_add ▸ hfault⟩)).symm

/-- An APPEND refused before its range reads nothing (R193). -/
theorem exec_append_portReads (hL : s.inflight = some L) (h : exec (.append c) s = .next t) (hok : t.errcode ≠ .ok)
    (hbus : t.errcode ≠ .bus) : t.portReads = s.portReads := by
  rcases exec_append_cases hL h with ⟨e, -, rfl⟩ | rfl | ⟨k, -, rfl⟩ | ⟨d, -, rfl⟩
  · rfl
  · rfl
  · exact absurd rfl hbus
  · exact absurd rfl hok

theorem exec_append_errcode (hL : s.inflight = some L) (hi : L.i = 0) (ha : RangeAnswered s L)
    (h : exec (.append c) s = .next t) :
    t.errcode =
      if numCtx s.params ≤ c then .badCtx
      else if (slotAt c s).live = false then .deadCtx
      else if L.a0 = 0#64 ∧ L.a1 ≠ 0#64 then .nullPtr
      else if L.a0.toNat + L.a1.toNat > 2 ^ 64 then .range
      else if ((List.range L.a1.toNat).any fun j => memFault s.params (rangeAddr L j)) = true then .bus
      else .ok := by
  rw [exec_append c s L hL] at h
  obtain rfl := Host.Outcome.next.inj h
  rw [orRaise_errcode, orRaise_errcode, finishAppend_errcode hi ha, checkCtx_getD, appendArgError_getD]

theorem exec_appendImm_errcode (hL : s.inflight = some L) (h : exec (.appendImm c) s = .next t) :
    t.errcode =
      if numCtx s.params ≤ c then .badCtx
      else if (slotAt c s).live = false then .deadCtx
      else if L.a1.toNat > 8 then .badArg
      else .ok := by
  rw [exec, execAppendImm, operandLatch_of_inflight s L hL] at h
  obtain rfl := Host.Outcome.next.inj h
  rw [orRaise_or, orRaise_errcode, orRaise_errcode, checkCtx_getD, appendImmArgError, check_getD, complete_errcode]

/-- The commands whose only check is that of their slot (R200, R201, R202). -/
theorem exec_slotOnly_errcode {i : Instr} (hi : i ∈ [.checksum c, .getreg c, .destroy c]) (h : exec i s = .next t) :
    t.errcode =
      if numCtx s.params ≤ c then .badCtx else if (slotAt c s).live = false then .deadCtx else .ok := by
  simp only [List.mem_cons, List.not_mem_nil, or_false] at hi
  rcases hi with rfl | rfl | rfl <;> obtain rfl := Host.Outcome.next.inj h <;>
    rw [orRaise_errcode, checkCtx_getD, complete_errcode]

theorem exec_create_errcode (h : exec .create s = .next t) :
    t.errcode = if ∀ c, c < numCtx s.params → (slotAt c s).live = true then .noSlot else .ok := by
  cases hfree : leastFree s with
  | none =>
    obtain rfl := Host.Outcome.next.inj ((exec_create_of_full hfree).symm.trans h)
    rw [if_pos ((leastFree_eq_none_iff s).1 hfree)]
    rfl
  | some c =>
    obtain rfl := Host.Outcome.next.inj ((exec_create_of_free hfree).symm.trans h)
    rw [if_neg (by simp [← leastFree_eq_none_iff, hfree])]
    rfl

theorem exec_stepByte_errcode (hL : s.inflight = some L) (h : exec .stepByte s = .next t) :
    t.errcode = if L.a1.toNat > 0xFF then .badArg else .ok := by
  rw [exec, execStepByte, operandLatch_of_inflight s L hL] at h
  obtain rfl := Host.Outcome.next.inj h
  rw [orRaise_errcode, stepByteArgError, check_getD, complete_errcode]

theorem exec_tblRead_errcode (hL : s.inflight = some L) (h : exec .tblRead s = .next t) :
    t.errcode = if L.a0.toNat > 7 ∨ L.a1.toNat > 255 then .badArg else .ok := by
  rw [exec, execTblRead, operandLatch_of_inflight s L hL] at h
  obtain rfl := Host.Outcome.next.inj h
  rw [orRaise_errcode, tblReadArgError, check_getD, complete_errcode]

end Codes

/-- Settles O21: each kind of command by the list of its checks. -/
theorem firstErrorInOrderWins : Obligations.FirstErrorInOrderWins := by
  refine ⟨fun s L e he hb hL hd => ?_, fun s L c hL hi ha => ?_, fun s L c hL => ?_, fun i s c hi => ?_, fun s => ?_,
    fun s L hL => ⟨?_, ?_, ⟨_, exec_stepWord hL, rfl⟩, ⟨_, rfl, rfl⟩⟩⟩
  · exact ⟨_, (step_event _ _ s he).trans (engineRun_illegal (s := withEvents [] s) hb hL hd), rfl⟩
  · obtain ⟨t, ht⟩ := exec_eq_next (.append c) s
    exact ⟨t, ht, exec_append_errcode hL hi ha ht, exec_append_portReads hL ht⟩
  · obtain ⟨t, ht⟩ := exec_eq_next (.appendImm c) s
    exact ⟨t, ht, exec_portReads (by simp) ht, exec_appendImm_errcode hL ht⟩
  · obtain ⟨t, ht⟩ := exec_eq_next i s
    have hne (b : Nat) : i ≠ .append b := by rintro rfl; simp at hi
    exact ⟨t, ht, exec_portReads hne ht, exec_slotOnly_errcode hi ht⟩
  · obtain ⟨t, ht⟩ := exec_eq_next .create s
    exact ⟨t, ht, exec_create_errcode ht⟩
  · obtain ⟨t, ht⟩ := exec_eq_next .stepByte s
    exact ⟨t, ht, exec_stepByte_errcode hL ht⟩
  · obtain ⟨t, ht⟩ := exec_eq_next .tblRead s
    exact ⟨t, ht, exec_tblRead_errcode hL ht⟩

/-! ### A completion beside a write of `CMD` (R246) -/

section Simultaneous

variable {s t u : State} {L : Latch}

/-- A command in flight whose reads are answered is completed by the engine's run (R192, R291). -/
theorem engineRun_completes (hb : s.builder = .done) (hL : s.inflight = some L) (ha : ReadsAnswered s L) :
    ∃ e v g r, engineRun s = .next (complete e v g { s with portReads := r }) := by
  rw [engineRun_inflight s L hb hL]
  cases hd : decode L.w with
  | error e => exact ⟨.illegal, none, none, s.portReads, runWord_error L.w e s hd⟩
  | ok i =>
    obtain ⟨t, ht⟩ := exec_eq_next i s
    obtain ⟨-, hnone, -, -⟩ := exec_answered hL (fun c hc => ha c (hc ▸ hd)) ht
    rw [runWord_ok L.w i s hd, ht]
    cases exec_end ht with
    | raised e r => exact ⟨e, none, none, r, rfl⟩
    | succeeded v g r => exact ⟨.ok, v, g, r, rfl⟩
    | unanswered => cases hL.symm.trans hnone

/-- While a command is in flight the builder is done, and `BUSY` is 1 (R36, R123). -/
theorem EngineInv.of_inflight (hs : EngineInv s) (hL : s.inflight = some L) : s.builder = .done ∧ s.busy = true := by
  refine ⟨?_, hs.busy_iff.2 (.inl (by simp [hL]))⟩
  cases hb : s.builder with
  | done => rfl
  | running => cases hL.symm.trans (hs.running_idle hb)

theorem run_two (h : step s = .next t) (h' : step t = .next u) : Host.Core.run Sys2Proof.core 2 s = .next u :=
  (run_step 1 s t h).trans ((run_one t).trans h')

end Simultaneous

/-- Settles O59: the completion leaves the engine idle for the write after it, and the write before it finds the engine busy. -/
theorem simultaneousWriteEitherWay : Obligations.SimultaneousWriteEitherWay := by
  intro s L v hs hL ha
  obtain ⟨hb, hbusy⟩ := hs.of_inflight hL
  constructor
  · obtain ⟨e, a, g, r, hrun⟩ := engineRun_completes
      (s := withEvents [.hostWrite (regBase s.params + 0x58#64) 8 v] s) hb hL ha
    exact ⟨_, run_two ((step_event .engineRun _ _ rfl).trans hrun) (step_cmd_accepted (rest := []) rfl rfl), rfl, rfl, rfl⟩
  · have hdrop := step_cmd_dropped (v := v) (rest := [.engineRun])
      (s := withEvents [.hostWrite (regBase s.params + 0x58#64) 8 v, .engineRun] s) hbusy rfl
    obtain ⟨e, a, g, r, hrun⟩ := engineRun_completes
      (s := { withEvents [] s with overrun := true, accessed := true, reply := some .written }) hb hL ha
    exact ⟨_, run_two hdrop ((step_event .engineRun [] _ rfl).trans hrun), rfl, rfl, rfl⟩

end Sys2Proof.Machine
end

section
/-! PROOFS. Reset, and what a command in flight can wait for (R270, R287, R291): the state reset leaves, the operand registers a
command in flight no longer looks at, and its completion, which hangs on the answers to its reads alone. -/

namespace Sys2Proof.Machine

/-! ### The operand registers under a command in flight (R287) -/

/-- `s` with other values of `ARG0`, `ARG1` and `CTRL`. -/
def setOperands (x y : Word) (z : Sel) (s : State) : State := { s with arg0 := x, arg1 := y, ctrl := z }

section Operands

variable (x y : Word) (z : Sel)

theorem orRaise_setOperands (e : Option ErrCode) (s t : State) :
    orRaise e (setOperands x y z s) (setOperands x y z t) = setOperands x y z (orRaise e s t) := by
  cases e with
  | none => rfl
  | some code => rfl

theorem finishAppend_setOperands (c : Nat) (L : Latch) (o : RangeOutcome) (s : State) :
    finishAppend c L o (setOperands x y z s) = setOperands x y z (finishAppend c L o s) := by
  cases o with
  | silent | busFault | bytes => rfl

/-- With a command in flight every meaning takes its operands from the latch, so other values of the operand registers stay
beside its run. -/
theorem exec_setOperands {i : Instr} {s t : State} {L : Latch} (hL : s.inflight = some L) (h : exec i s = .next t) :
    exec i (setOperands x y z s) = .next (setOperands x y z t) := by
  have hlatch : operandLatch (setOperands x y z s) = operandLatch s :=
    (operandLatch_of_inflight (setOperands x y z s) L hL).trans (operandLatch_of_inflight s L hL).symm
  cases i <;> obtain rfl := Host.Outcome.next.inj h
  case nop => rfl
  case create =>
    have hfree : leastFree (setOperands x y z s) = leastFree s := rfl
    rw [exec, execCreate, hfree]
    cases leastFree s <;> rfl
  case append c =>
    have hread : readRange (operandLatch s) (operandLatch s).i (appendLength (operandLatch s) - (operandLatch s).i)
        (setOperands x y z s) = readRange (operandLatch s) (operandLatch s).i _ s :=
      readRange_congr _ _ _ s _ rfl rfl rfl rfl
    rw [exec, execAppend, hlatch, hread, finishAppend_setOperands, ← orRaise_setOperands]
    rfl
  case stepWord =>
    rw [exec, execStepWord, hlatch]
    rfl
  case appendImm | checksum | getreg | destroy | stepByte | tblRead =>
    simp only [exec, execAppendImm, execChecksum, execGetreg, execDestroy, execStepByte, execTblRead, hlatch]
    rw [← orRaise_setOperands]
    rfl

end Operands

/-- Settles O31: the run of the command goes on beside the written registers. -/
theorem operandWritesDoNotTouchTheCommandInFlight : Obligations.OperandWritesDoNotTouchTheCommandInFlight := by
  intro i s L x y z hL
  obtain ⟨t, ht⟩ := exec_eq_next i s
  exact ⟨t, ht, exec_setOperands x y z hL ht⟩

/-! ### Completion and its reads (R291) -/

/-- Settles O51: the small steps go where the engine's run goes (R207), which completes a command whose reads are answered. -/
theorem everyAcceptedCommandCompletes : Obligations.EveryAcceptedCommandCompletes := by
  intro s L hs hL ha
  obtain ⟨hb, -⟩ := hs.of_inflight hL
  obtain ⟨n, -, hn, hrun⟩ := run_engineUnits hs hb hL ha
  obtain ⟨e, v, g, r, hend⟩ := engineRun_completes (s := withEvents [] s) hb hL ha
  exact ⟨n, _, hn.trans (Nat.succ_le_succ (Nat.sub_le ..)), hrun.trans hend, rfl, rfl⟩

/-- A range gives no answer when one of its reads has none and no read before it faults (R291). -/
theorem readRange_silent {L : Latch} {s : State} {i k n : Nat} (hk : k < n)
    (hsilent : memSilent s.params (rangeAddr L (i + k)) = true)
    (hbefore : ∀ j, i ≤ j → j < i + k →
      memSilent s.params (rangeAddr L j) = false ∧ memFault s.params (rangeAddr L j) = false) :
    readRange L i n s = .silent := by
  have hread : memRead L (i + k) s = .silent := if_pos hsilent
  obtain ⟨m, rfl⟩ : ∃ m, n = k + (m + 1) := ⟨n - k - 1, by omega⟩
  rw [readRange_add, readRange_bytes L i k s hbefore, readRange, hread]

/-- Settles O52: past its checks an APPEND ends as its range says, and this range gives no answer. -/
theorem anUnansweredReadKeepsTheAppendInFlight : Obligations.AnUnansweredReadKeepsTheAppendInFlight := by
  intro s L c k hL hi hlive hnull hrange hk hsilent hbefore
  have hread : readRange L 0 (appendLength L) s = .silent :=
    readRange_silent hk ((Nat.zero_add k).symm ▸ hsilent) fun j _ hj => hbefore j (by omega)
  rw [exec_append_of_checked hL (appendError_of_live hlive hnull hrange), hi, Nat.sub_zero, hread, finishAppend]

/-! ### Reset (R270) -/

theorem ctrlWord_reset : ctrlWord State.reset.ctrl = 0#64 := by decide

/-- Settles O32: a step with a reset event is `resetEngine`, which leaves no slot live. -/
theorem resetLeavesTheSpecValues : Obligations.ResetLeavesTheSpecValues := by
  intro s rest he
  refine ⟨resetEngine { s with events := rest }, step_event .reset rest s he, fun c => slotAt_resetEngine_live c _, rfl, rfl,
    rfl, rfl, rfl, ctrlWord_reset, rfl, rfl, rfl, rfl, rfl, rfl, rfl, rfl, fun r hr => ?_⟩
  fin_cases hr <;> rfl

/-- Settles O47: at reset nothing is in flight and the builder runs, so that only memory and the slots are left to look at. -/
theorem invariantHoldsAtReset : Obligations.InvariantHoldsAtReset where
  busy_iff := iff_of_true rfl (.inr rfl)
  ready_iff := iff_of_false nofun nofun
  tables_built := nofun
  running_idle _ := rfl
  accessed_first := nofun
  ctrl_legal := nofun
  sel_legal := nofun
  slots_exist c _ := slotAt_resetEngine_live c State.reset
  mem_wf := Memory.wf_nil
  window_closed _ := rfl
  progress_bounded := nofun
  reads_made := nofun
  only_append := nofun

end Sys2Proof.Machine
end
